-- ==== Sys2Proof/Word.lean ====
section
/-! DEFINITION. The bit-vector widths of the core (00_scope.md R10, R11, R12) and the plain types of its
indices. -/

namespace Sys2Proof

/-- A memory byte, a general register, a timer: unsigned 8 bits (R11, R20, R29, R51). -/
abbrev Byte := BitVec 8

/-- An instruction word, `pc`, `I`, a stack slot: unsigned 16 bits (R22, R24, R25, R70). -/
abbrev Word := BitVec 16

/-- A memory address after the 12-bit mask, and the `nnn` field (R50, R54, R71). -/
abbrev Addr := BitVec 12

/-- A 4-bit field of an instruction word (R12, R71). -/
abbrev Nibble := BitVec 4

/-- The index of a general register, V0 to VF: every 4-bit value names a register (R20, R72). -/
abbrev Reg := Fin 16

/-- The index of a key of the keypad, 0 to 15 (R31, R247). -/
abbrev Key := Fin 16

/-- The flag register VF = V[15] (R21). -/
abbrev flagReg : Reg := 15

end Sys2Proof
end

