-- ==== Sys2Proof/Syntax.lean ====
section
/-! DEFINITION. The instructions: one constructor per row of spec/opcode_table.json (30_encoding.md R74), in the
table's order. Operand names are the fields of R71: `x`, `y` register indices, `kk` a byte, `nnn` an address, `n` a
sprite height. An unmapped word (R75) is no instruction; what it does is Machine/Engine.lean's `execUnknown` (R78). -/

namespace Sys2Proof

inductive Instr where
  /-- CLS, 00E0 (R170) -/
  | cls
  /-- RET, 00EE (R100) -/
  | ret
  /-- JP nnn, 1nnn (R101) -/
  | jpNnn (nnn : Addr)
  /-- CALL nnn, 2nnn (R102) -/
  | callNnn (nnn : Addr)
  /-- SE Vx,kk, 3xkk (R103) -/
  | seVxKk (x : Reg) (kk : Byte)
  /-- SNE Vx,kk, 4xkk (R104) -/
  | sneVxKk (x : Reg) (kk : Byte)
  /-- SE Vx,Vy, 5xy0 (R105) -/
  | seVxVy (x y : Reg)
  /-- LD Vx,kk, 6xkk (R122) -/
  | ldVxKk (x : Reg) (kk : Byte)
  /-- ADD Vx,kk, 7xkk (R123) -/
  | addVxKk (x : Reg) (kk : Byte)
  /-- LD Vx,Vy, 8xy0 (R124) -/
  | ldVxVy (x y : Reg)
  /-- OR Vx,Vy, 8xy1 (R125) -/
  | orVxVy (x y : Reg)
  /-- AND Vx,Vy, 8xy2 (R126) -/
  | andVxVy (x y : Reg)
  /-- XOR Vx,Vy, 8xy3 (R127) -/
  | xorVxVy (x y : Reg)
  /-- ADD Vx,Vy, 8xy4 (R128) -/
  | addVxVy (x y : Reg)
  /-- SUB Vx,Vy, 8xy5 (R129) -/
  | subVxVy (x y : Reg)
  /-- SHR Vx,Vy, 8xy6 (R130) -/
  | shrVxVy (x y : Reg)
  /-- SUBN Vx,Vy, 8xy7 (R131) -/
  | subnVxVy (x y : Reg)
  /-- SHL Vx,Vy, 8xyE (R132) -/
  | shlVxVy (x y : Reg)
  /-- SNE Vx,Vy, 9xy0 (R106) -/
  | sneVxVy (x y : Reg)
  /-- LD I,nnn, Annn (R150) -/
  | ldINnn (nnn : Addr)
  /-- JP V0,nnn, Bnnn (R107) -/
  | jpV0Nnn (nnn : Addr)
  /-- RND Vx,kk, Cxkk (R133) -/
  | rndVxKk (x : Reg) (kk : Byte)
  /-- DRW Vx,Vy,n, Dxyn (R172) -/
  | drwVxVyN (x y : Reg) (n : Nibble)
  /-- SKP Vx, Ex9E (R190) -/
  | skpVx (x : Reg)
  /-- SKNP Vx, ExA1 (R191) -/
  | sknpVx (x : Reg)
  /-- LD Vx,DT, Fx07 (R192) -/
  | ldVxDt (x : Reg)
  /-- LD Vx,K, Fx0A (R193) -/
  | ldVxK (x : Reg)
  /-- LD DT,Vx, Fx15 (R194) -/
  | ldDtVx (x : Reg)
  /-- LD ST,Vx, Fx18 (R195) -/
  | ldStVx (x : Reg)
  /-- ADD I,Vx, Fx1E (R151) -/
  | addIVx (x : Reg)
  /-- LD F,Vx, Fx29 (R152) -/
  | ldFVx (x : Reg)
  /-- LD B,Vx, Fx33 (R153) -/
  | ldBVx (x : Reg)
  /-- LD [I],Vx, Fx55 (R154) -/
  | ldMemIVx (x : Reg)
  /-- LD Vx,[I], Fx65 (R155) -/
  | ldVxMemI (x : Reg)
  deriving DecidableEq, Repr

end Sys2Proof
end

