-- ==== Sys2Proof/Decode.lean ====
section
/-! DEFINITION. From instruction words to instructions and back (30_encoding.md). Decoding is total: a word that
matches no row of the opcode map R74 is rejected under the name of its family (R75). The encoder is R82. The bit
patterns are R74's, most of which the spec takes from general knowledge (log entry 15). -/

namespace Sys2Proof

/-- Field `op` = w[15:12], the family selector (R71). -/
def fieldOp (w : Word) : Nibble := w.extractLsb' 12 4

/-- Field `x` = w[11:8] (R71). -/
def fieldX (w : Word) : Reg := (w.extractLsb' 8 4).toFin

/-- Field `y` = w[7:4] (R71). -/
def fieldY (w : Word) : Reg := (w.extractLsb' 4 4).toFin

/-- Field `n` = w[3:0], the sprite height, or the sub-selector of families 5, 8 and 9 (R71). -/
def fieldN (w : Word) : Nibble := w.extractLsb' 0 4

/-- Field `kk` = w[7:0], the byte immediate, or the sub-selector of families 0, E and F (R71). -/
def fieldKk (w : Word) : Byte := w.extractLsb' 0 8

/-- Field `nnn` = w[11:0] (R71). -/
def fieldNnn (w : Word) : Addr := w.extractLsb' 0 12

/-- Why bytes are no instruction. -/
inductive Reject where
  /-- fewer than two bytes are left; every instruction is one 16-bit word (R70) -/
  | truncated
  /-- 0nnn other than 00E0 and 00EE (R75; D10) -/
  | unmapped0
  /-- 5xyN with N ≠ 0 (R75; D11) -/
  | unmapped5
  /-- 8xyN with N in 8, 9, A, B, C, D, F (R75) -/
  | unmapped8
  /-- 9xyN with N ≠ 0 (R75; D11) -/
  | unmapped9
  /-- Exkk with kk not 9E or A1 (R75) -/
  | unmappedE
  /-- Fxkk with kk none of 07, 0A, 15, 18, 1E, 29, 33, 55, 65 (R75) -/
  | unmappedF
  deriving DecidableEq, Repr

/-- Family 0: the whole word is fixed (R74). -/
def decode0 (w : Word) : Except Reject Instr :=
  if w = 0x00E0#16 then .ok .cls
  else if w = 0x00EE#16 then .ok .ret
  else .error .unmapped0

/-- Family 8: the low nibble selects (R74). -/
def decode8 (x y : Reg) (n : Nibble) : Except Reject Instr :=
  match n with
  | 0x0#4 => .ok (.ldVxVy x y)
  | 0x1#4 => .ok (.orVxVy x y)
  | 0x2#4 => .ok (.andVxVy x y)
  | 0x3#4 => .ok (.xorVxVy x y)
  | 0x4#4 => .ok (.addVxVy x y)
  | 0x5#4 => .ok (.subVxVy x y)
  | 0x6#4 => .ok (.shrVxVy x y)
  | 0x7#4 => .ok (.subnVxVy x y)
  | 0xE#4 => .ok (.shlVxVy x y)
  | _ => .error .unmapped8

/-- Family E: the low byte selects (R74). -/
def decodeE (x : Reg) (kk : Byte) : Except Reject Instr :=
  match kk with
  | 0x9E#8 => .ok (.skpVx x)
  | 0xA1#8 => .ok (.sknpVx x)
  | _ => .error .unmappedE

/-- Family F: the low byte selects (R74). -/
def decodeF (x : Reg) (kk : Byte) : Except Reject Instr :=
  match kk with
  | 0x07#8 => .ok (.ldVxDt x)
  | 0x0A#8 => .ok (.ldVxK x)
  | 0x15#8 => .ok (.ldDtVx x)
  | 0x18#8 => .ok (.ldStVx x)
  | 0x1E#8 => .ok (.addIVx x)
  | 0x29#8 => .ok (.ldFVx x)
  | 0x33#8 => .ok (.ldBVx x)
  | 0x55#8 => .ok (.ldMemIVx x)
  | 0x65#8 => .ok (.ldVxMemI x)
  | _ => .error .unmappedF

/-- The instruction of a word, or the name of the unmapped space it lies in (R74, R75). -/
def decode (w : Word) : Except Reject Instr :=
  match fieldOp w with
  | 0x0#4 => decode0 w
  | 0x1#4 => .ok (.jpNnn (fieldNnn w))
  | 0x2#4 => .ok (.callNnn (fieldNnn w))
  | 0x3#4 => .ok (.seVxKk (fieldX w) (fieldKk w))
  | 0x4#4 => .ok (.sneVxKk (fieldX w) (fieldKk w))
  | 0x5#4 => if fieldN w = 0x0#4 then .ok (.seVxVy (fieldX w) (fieldY w)) else .error .unmapped5
  | 0x6#4 => .ok (.ldVxKk (fieldX w) (fieldKk w))
  | 0x7#4 => .ok (.addVxKk (fieldX w) (fieldKk w))
  | 0x8#4 => decode8 (fieldX w) (fieldY w) (fieldN w)
  | 0x9#4 => if fieldN w = 0x0#4 then .ok (.sneVxVy (fieldX w) (fieldY w)) else .error .unmapped9
  | 0xA#4 => .ok (.ldINnn (fieldNnn w))
  | 0xB#4 => .ok (.jpV0Nnn (fieldNnn w))
  | 0xC#4 => .ok (.rndVxKk (fieldX w) (fieldKk w))
  | 0xD#4 => .ok (.drwVxVyN (fieldX w) (fieldY w) (fieldN w))
  | 0xE#4 => decodeE (fieldX w) (fieldKk w)
  | _ => decodeF (fieldX w) (fieldKk w) -- 0xF, the only family left

/-- The word of two bytes, big-endian: the first byte is bits [15:8] (R52, R60, R70). -/
def wordOfBytes (hi lo : Byte) : Word := hi ++ lo

/-- The two bytes of a word in memory order (R52, R60). -/
def highByte (w : Word) : Byte := w.extractLsb' 8 8
def lowByte (w : Word) : Byte := w.extractLsb' 0 8

/-- The first instruction of a run of bytes and the bytes after it (R70: always two bytes). -/
def decodeBytes : List Byte → Except Reject (Instr × List Byte)
  | hi :: lo :: rest =>
    match decode (wordOfBytes hi lo) with
    | .ok i => .ok (i, rest)
    | .error r => .error r
  | _ => .error .truncated

/-- The host's entry: `w` numbers the bits as spec/opcode_table.json does, with bits from `nbits` up taken as zero.
The word is laid out in memory order (big-endian, R52) and given to the decoder. -/
def decodeTableWord (nbits w : Nat) : Option Instr :=
  let word : Word := BitVec.ofNat 16 (w % 2 ^ nbits)
  match decodeBytes [highByte word, lowByte word] with
  | .ok (i, _) => some i
  | .error _ => none

/-- Format NNN (R73): oooo nnnn nnnn nnnn. -/
def encNnn (op : Nibble) (nnn : Addr) : Word := op ++ nnn

/-- Format XKK (R73): oooo xxxx kkkk kkkk. Format XSS is the same layout with `kk` a fixed selector. -/
def encXkk (op : Nibble) (x : Reg) (kk : Byte) : Word := op ++ ((BitVec.ofFin x : Nibble) ++ kk)

/-- Format XYN (R73): oooo xxxx yyyy nnnn. Format XYS is the same layout with `n` a fixed selector. -/
def encXyn (op : Nibble) (x y : Reg) (n : Nibble) : Word :=
  op ++ ((BitVec.ofFin x : Nibble) ++ ((BitVec.ofFin y : Nibble) ++ n))

/-- The word of an instruction: the pattern of R74 with its fields filled in (R82). -/
def encode : Instr → Word
  | .cls => 0x00E0#16
  | .ret => 0x00EE#16
  | .jpNnn nnn => encNnn 0x1#4 nnn
  | .callNnn nnn => encNnn 0x2#4 nnn
  | .seVxKk x kk => encXkk 0x3#4 x kk
  | .sneVxKk x kk => encXkk 0x4#4 x kk
  | .seVxVy x y => encXyn 0x5#4 x y 0x0#4
  | .ldVxKk x kk => encXkk 0x6#4 x kk
  | .addVxKk x kk => encXkk 0x7#4 x kk
  | .ldVxVy x y => encXyn 0x8#4 x y 0x0#4
  | .orVxVy x y => encXyn 0x8#4 x y 0x1#4
  | .andVxVy x y => encXyn 0x8#4 x y 0x2#4
  | .xorVxVy x y => encXyn 0x8#4 x y 0x3#4
  | .addVxVy x y => encXyn 0x8#4 x y 0x4#4
  | .subVxVy x y => encXyn 0x8#4 x y 0x5#4
  | .shrVxVy x y => encXyn 0x8#4 x y 0x6#4
  | .subnVxVy x y => encXyn 0x8#4 x y 0x7#4
  | .shlVxVy x y => encXyn 0x8#4 x y 0xE#4
  | .sneVxVy x y => encXyn 0x9#4 x y 0x0#4
  | .ldINnn nnn => encNnn 0xA#4 nnn
  | .jpV0Nnn nnn => encNnn 0xB#4 nnn
  | .rndVxKk x kk => encXkk 0xC#4 x kk
  | .drwVxVyN x y n => encXyn 0xD#4 x y n
  | .skpVx x => encXkk 0xE#4 x 0x9E#8
  | .sknpVx x => encXkk 0xE#4 x 0xA1#8
  | .ldVxDt x => encXkk 0xF#4 x 0x07#8
  | .ldVxK x => encXkk 0xF#4 x 0x0A#8
  | .ldDtVx x => encXkk 0xF#4 x 0x15#8
  | .ldStVx x => encXkk 0xF#4 x 0x18#8
  | .addIVx x => encXkk 0xF#4 x 0x1E#8
  | .ldFVx x => encXkk 0xF#4 x 0x29#8
  | .ldBVx x => encXkk 0xF#4 x 0x33#8
  | .ldMemIVx x => encXkk 0xF#4 x 0x55#8
  | .ldVxMemI x => encXkk 0xF#4 x 0x65#8

end Sys2Proof
end

