-- ==== Sys2Proof/Config.lean ====
section
/-! DEFINITION. What an implementation of the core fixes: the parameters of 00_scope.md R10, and the values the spec
leaves to the environment. The values the spec gives the parameters stand in Machine/Params.lean. -/

namespace Sys2Proof

/-- Parameter SHIFT_SOURCE: the register SHR and SHL shift (R10, R130, R132; D7). -/
inductive ShiftSource where
  | vx
  | vy
  deriving DecidableEq, Repr

/-- Parameter FONT_WRITE_POLICY: what a store into 0x000..0x04F does (R10, R55; D3). -/
inductive FontWritePolicy where
  /-- the instruction halts with FONT_WRITE before it writes any byte -/
  | fault
  /-- the byte is not written -/
  | drop
  /-- the byte is written -/
  | write
  deriving DecidableEq, Repr

/-- The parameters of R10 a machine is built with: the two that instruction rules read, and the font that construction
preloads. No transition changes them; they stand in State (log entry 3) so that statements hold for every value the spec
admits. -/
structure Config where
  /-- SHIFT_SOURCE (R130, R132) -/
  shiftSource : ShiftSource
  /-- FONT_WRITE_POLICY (R55) -/
  fontWritePolicy : FontWritePolicy
  /-- FONT_DATA (R56, R57; D17): the byte at address k of the font region, for k below 0x050 -/
  fontData : Vector Byte 80
  deriving DecidableEq, Repr

/-- RAND (R10, R133, R249; D24): the byte the environment draws for the k-th RND of a run. FREE VALUE: any byte,
independent of every other draw. It has no body, so nothing can be proved of its values (log entry 2). -/
opaque Config.randomDraw : Nat → Byte

/-- INSTR_RATE_HZ (R10, R233; D18): OPEN in the spec. No rule reads it; only the reference scheduler of R241
(Machine/Scheduler.lean) is shaped by it (log entry 13). DESIGN CHOICE (safe for the core, log entry 18): the spec gives
the rate no type or range; the model makes it a natural number of Hz, 0 included, at which no Tick ever fires. -/
opaque Config.instrRateHz : Nat

end Sys2Proof
end

