-- ==== Sys2Proof/Machine/Params.lean ====
section
/-! DEFINITION. The values the spec gives the core's parameters (00_scope.md R10): sizes, the default configuration
and the default font. -/

namespace Sys2Proof.Machine

/-- MEM_SIZE: 4096 bytes (R10, R50). -/
def memSize : Nat := 4096

/-- FONT_BASE: glyph 0 lies at address 0x000 (R10, R56). -/
def fontBase : Nat := 0x000

/-- FONT_END: the font region is the addresses below 0x050 (R10, R55, R58). -/
def fontEnd : Nat := 0x050

/-- FONT_GLYPH_BYTES: glyph k lies at address 5k (R10, R56, R152). -/
def fontGlyphBytes : Nat := 5

/-- PROGRAM_BASE: the reset entry point and the address the loader writes the image at (R10, R38, R57, R262). -/
def programBase : Nat := 0x200

/-- The most bytes of an image the loader copies, 0x1000 - 0x200 (R57, R262). -/
def imageCapacity : Nat := memSize - programBase

/-- TIMER_RATE_HZ (R10, R233; D18). No rule of the core reads it. -/
def timerRateHz : Nat := 60

/-- The default of FONT_DATA (R56; D17): glyphs 0 to F, 5 bytes each, bit 7 leftmost. The spec takes these bytes from general
knowledge (G3); log entry 6. -/
def defaultFont : List Byte :=
  [0xF0, 0x90, 0x90, 0x90, 0xF0] ++ -- 0
  [0x20, 0x60, 0x20, 0x20, 0x70] ++ -- 1
  [0xF0, 0x10, 0xF0, 0x80, 0xF0] ++ -- 2
  [0xF0, 0x10, 0xF0, 0x10, 0xF0] ++ -- 3
  [0x90, 0x90, 0xF0, 0x10, 0x10] ++ -- 4
  [0xF0, 0x80, 0xF0, 0x10, 0xF0] ++ -- 5
  [0xF0, 0x80, 0xF0, 0x90, 0xF0] ++ -- 6
  [0xF0, 0x10, 0x20, 0x40, 0x40] ++ -- 7
  [0xF0, 0x90, 0xF0, 0x90, 0xF0] ++ -- 8
  [0xF0, 0x90, 0xF0, 0x10, 0xF0] ++ -- 9
  [0xF0, 0x90, 0xF0, 0x90, 0x90] ++ -- A
  [0xE0, 0x90, 0xE0, 0x90, 0xE0] ++ -- B
  [0xF0, 0x80, 0x80, 0x80, 0xF0] ++ -- C
  [0xE0, 0x90, 0x90, 0x90, 0xE0] ++ -- D
  [0xF0, 0x80, 0xF0, 0x80, 0xF0] ++ -- E
  [0xF0, 0x80, 0xF0, 0x80, 0x80]    -- F

/-- The spec's default parameters (R10): SHIFT_SOURCE = VX, FONT_WRITE_POLICY = FAULT, FONT_DATA the table of R56 (D7,
D3, D17). -/
def defaultConfig : Config where
  shiftSource := .vx
  fontWritePolicy := .fault
  fontData := Vector.ofFn (fun k => defaultFont.getD k.val 0)

/-- What an unlisted address reads as, with every configuration: what memory holds after construction with the default
font (R57), the font below 0x050 and zero everywhere else. Another font is listed by `construct` (log entry 11). -/
def initialByte (a : Addr) : Byte := defaultFont.getD a.toNat 0

end Sys2Proof.Machine
end

