-- ==== Sys2Proof/Machine/State.lean ====
section
/-! DEFINITION. The state of the core as plain data: every element 10_state.md gives it, and four fields of the
model's own (config, schedule, events, draws; log entries 1 to 4). -/

namespace Sys2Proof.Machine

/-- Memory: the bytes that differ from what an unlisted address reads as (`initialByte`, R57), by strictly rising
address (R34, R50, R51; log entry 11). -/
abbrev Memory := List Host.Cell

/-- The display: 32 rows of 64 one-bit pixels, row y first, then column x (R30). -/
abbrev Display := Vector (Vector Bool 64) 32

/-- The display with every pixel unset (R38, R170). -/
def Display.clear : Display := Vector.replicate 32 (Vector.replicate 64 false)

/-- The wait state (R32). -/
inductive Wait where
  /-- NONE -/
  | none
  /-- AWAITING(x): LD Vx,K has started and no key press has been delivered -/
  | awaiting (x : Reg)
  deriving DecidableEq, Repr

/-- The halt reasons and what each records (R222). -/
inductive HaltReason where
  /-- code 1: the environment's stop signal (R228) -/
  | stopped (pc : Word)
  /-- code 2: pc + 1 > 0x0FFF at fetch (R52) -/
  | fetchOutOfBounds (pc : Word)
  /-- code 3: CALL with 16 return addresses stacked (R102) -/
  | stackOverflow (pc word : Word)
  /-- code 4: RET with the stack empty (R100) -/
  | stackUnderflow (pc word : Word)
  /-- code 5: a store into the font region under policy FAULT, with the lowest offending masked address (R55) -/
  | fontWrite (pc word : Word) (lowest : Addr)
  /-- code 6: the image cannot be loaded or is empty (R263) -/
  | loadFailed
  deriving DecidableEq, Repr

/-- The run status (R33). -/
inductive Status where
  | running
  | halted (reason : HaltReason)
  deriving DecidableEq, Repr

/-- The five atomic transitions of the core's interface (R240). -/
inductive Transition where
  /-- Step: the engine fetches, decodes and executes one instruction (R77) -/
  | step
  /-- Tick: one timer tick (R230) -/
  | tick
  /-- SetKeys(k16): the input collaborator replaces the key states (R246) -/
  | setKeys (k16 : BitVec 16)
  /-- KeyPress(k): the input collaborator delivers a key press (R247) -/
  | keyPress (k : Key)
  /-- Stop: the environment's stop signal (R228) -/
  | stop
  deriving DecidableEq, Repr

/-- The one-shot output events (R15, R227, R231). -/
inductive Event where
  /-- SoundCue() (R231) -/
  | soundCue
  /-- UnknownOpcode(pc, w) (R227) -/
  | unknownOpcode (pc word : Word)
  deriving DecidableEq, Repr

structure State where
  /-- V0 to VF (R20) -/
  v : Vector Byte 16
  /-- the address register, all 16 bits (R24) -/
  I : Word
  /-- the program counter: the address of the executing instruction (R22) -/
  pc : Word
  /-- the number of occupied stack slots, 0 to 16 (R25) -/
  sp : Fin 17
  /-- the 16 call-stack slots (R25) -/
  stack : Vector Word 16
  /-- the delay timer (R29) -/
  DT : Byte
  /-- the sound timer (R29) -/
  ST : Byte
  /-- the display (R30) -/
  disp : Display
  /-- the keypad: bit k is keys[k], 1 means held (R31, R246; log entry 14) -/
  keys : BitVec 16
  /-- the wait state (R32) -/
  wait : Wait
  /-- the run status (R33) -/
  status : Status
  /-- memory (R34) -/
  mem : Memory
  /-- MODEL'S OWN: the parameters the machine is built with (R10); no transition changes it (log entry 3) -/
  config : Config
  /-- MODEL'S OWN: the environment's transitions still to be taken, oldest first; when it is empty the next transition
  is Step (R240, R243; log entry 1) -/
  schedule : List Transition
  /-- MODEL'S OWN: the output events emitted so far, oldest first (R227, R231; log entry 4) -/
  events : List Event
  /-- MODEL'S OWN: how many random bytes have been drawn, the index of the next free value (R133, R249; log entry 2) -/
  draws : Nat
  deriving DecidableEq, Repr

/-- Why a step has no next state. -/
inductive Fault where
  /-- Raised by Machine/Engine.lean's `runNext` (so by `step`) when the status is HALTED: R224, no transition is
  enabled after a halt, and the state stays as it is (log entry 9). Safe: the machine takes no step the core would not
  take. -/
  | halted (reason : HaltReason)
  deriving DecidableEq, Repr

/-- Why an instruction has no meaning. -/
inductive Refusal where
  /-- Raised by exec's arm of an instruction that has no meaning yet. Safe: nothing can be proved of it. No arm does
  so in this model. -/
  | notModelled (mnemonic : String)
  deriving DecidableEq, Repr

/-- The state right after construction (R38, R57, R260, R261), before the loader runs (R262; Machine/Boot.lean). The
last four fields are the model's own (log entries 1 to 4). -/
def State.reset : State where
  v := Vector.replicate 16 0
  I := 0
  pc := BitVec.ofNat 16 programBase
  sp := 0
  stack := Vector.replicate 16 0
  DT := 0
  ST := 0
  disp := Display.clear
  keys := 0
  wait := .none
  status := .running
  mem := []
  config := defaultConfig
  schedule := []
  events := []
  draws := 0

end Sys2Proof.Machine
end

