-- ==== Sys2Proof/Machine/Operands.lean ====
section
/-! DEFINITION. The operand forms: how an instruction's fields and the state give it its operands. -/

namespace Sys2Proof.Machine

/-- A register operand, `V[x]` (R13, R20). -/
def State.reg (s : State) (x : Reg) : Byte := s.v.get x

/-- An address immediate, `zext_16(nnn)` (R72). -/
def addrImmediate (nnn : Addr) : Word := nnn.setWidth 16

/-- A register value as a 16-bit quantity, `zext_16(V[x])` (R107, R151). -/
def byteToWord (b : Byte) : Word := b.setWidth 16

/-- The computed jump target, `zext_16(nnn) + zext_16(V[0])`, not masked (R107; D22). -/
def jumpOffsetTarget (nnn : Addr) (v0 : Byte) : Word := addrImmediate nnn + byteToWord v0

/-- The register SHR and SHL shift, by parameter SHIFT_SOURCE (R130, R132). -/
def shiftOperand (s : State) (x y : Reg) : Byte :=
  match s.config.shiftSource with
  | .vx => s.reg x
  | .vy => s.reg y

/-- The byte address of data access r of an instruction, `(I + r) & 0x0FFF`: the sum is not truncated before the mask
(R54, R59). -/
def dataAddr (base : Word) (r : Nat) : Addr := BitVec.ofNat 12 (base.toNat + r)

/-- The n addresses of a data access of n bytes, each masked on its own (R54, R59). -/
def dataAddrs (base : Word) (n : Nat) : List Addr := (List.range n).map (dataAddr base)

/-- The address of the font glyph of a byte, `zext_16(V[x]) * 5`, with no nibble mask (R152). -/
def glyphAddr (b : Byte) : Word := BitVec.ofNat 16 (b.toNat * fontGlyphBytes)

/-- The three decimal digits of a byte, hundreds first (R153, R60). -/
def decimalDigits (b : Byte) : List Byte :=
  [BitVec.ofNat 8 (b.toNat / 100), BitVec.ofNat 8 (b.toNat / 10 % 10), BitVec.ofNat 8 (b.toNat % 10)]

/-- The bytes V0 to Vx that a register dump stores (R154). -/
def dumpBytes (s : State) (x : Reg) : List Byte := (List.range (x.val + 1)).map (fun r => s.reg (Fin.ofNat 16 r))

/-- Key `k` is held: an index of 16 or more names no key and counts as not held (R190, R191; D12). -/
def keyHeld (keys : BitVec 16) (k : Byte) : Bool := decide (k.toNat < 16) && keys.getLsbD k.toNat

end Sys2Proof.Machine
end

