-- ==== Sys2Proof/Machine/Ops.lean ====
section
/-! DEFINITION. The named operations over the state: one setter per field, memory, the display, the call stack, the
program counter, events, and entering a halt. -/

namespace Sys2Proof.Machine

/-! ### One setter per field -/

/-- `V[x] <- b` (R13, R20). -/
def State.setV (s : State) (x : Reg) (b : Byte) : State := { s with v := s.v.set x b }
/-- All 16 registers at once (LD Vx,[I], R155). -/
def State.setRegs (s : State) (v : Vector Byte 16) : State := { s with v := v }
def State.setI (s : State) (a : Word) : State := { s with I := a }
/-- `pc <- target` (R13). -/
def State.setPc (s : State) (target : Word) : State := { s with pc := target }
def State.setStack (s : State) (sp : Fin 17) (stack : Vector Word 16) : State := { s with sp := sp, stack := stack }
def State.setDT (s : State) (b : Byte) : State := { s with DT := b }
def State.setST (s : State) (b : Byte) : State := { s with ST := b }
def State.setDisp (s : State) (d : Display) : State := { s with disp := d }
def State.setKeys (s : State) (k16 : BitVec 16) : State := { s with keys := k16 }
def State.setWait (s : State) (w : Wait) : State := { s with wait := w }
def State.setStatus (s : State) (st : Status) : State := { s with status := st }
def State.setMem (s : State) (m : Memory) : State := { s with mem := m }
def State.setSchedule (s : State) (ts : List Transition) : State := { s with schedule := ts }
/-- `emit Event(args)` (R15). -/
def State.emit (s : State) (e : Event) : State := { s with events := s.events ++ [e] }
/-- One random byte has been drawn (R15, R249). -/
def State.countDraw (s : State) : State := { s with draws := s.draws + 1 }

/-! ### The program counter -/

/-- `advance`: pc <- pc + 2 (R15, R76). -/
def State.advance (s : State) : State := s.setPc (s.pc + 2)

/-- A skip: pc <- pc + 4 when the condition holds, else pc + 2 (R76, R103). -/
def State.skipIf (s : State) (c : Bool) : State := if c then s.setPc (s.pc + 4) else s.advance

/-! ### Memory -/

/-- `mem[a]` (R51, R61): an address with no entry holds what it held at reset (R57). -/
def Memory.read : Memory → Addr → Byte
  | [], a => initialByte a
  | (k, b) :: m, a => if k = a.toNat then b else Memory.read m a

/-- Remove the entries of an address, so that it reads as at reset. -/
def Memory.erase (m : Memory) (k : Nat) : Memory := m.filter (fun c => c.1 != k)

/-- Put an entry at its place in the rising order. -/
def Memory.put : Memory → Nat → Byte → Memory
  | [], k, b => [(k, b)]
  | (k', b') :: m, k, b =>
    if k' < k then (k', b') :: Memory.put m k b
    else if k' = k then (k, b) :: m
    else (k, b) :: (k', b') :: m

/-- `mem[a] <- b`, keeping the canonical form (R51). -/
def Memory.write (m : Memory) (a : Addr) (b : Byte) : Memory :=
  if b = initialByte a then m.erase a.toNat else m.put a.toNat b

/-- The entries from address `lo` up are in canonical form: strictly rising, inside memory, none equal to what an
unlisted address reads as. -/
def Memory.wfFrom : Nat → Memory → Bool
  | _, [] => true
  | lo, (k, b) :: m =>
    decide (lo ≤ k) && decide (k < memSize) && (b != initialByte (BitVec.ofNat 12 k)) && Memory.wfFrom (k + 1) m

/-- The canonical form of memory. -/
def Memory.wf (m : Memory) : Bool := Memory.wfFrom 0 m

/-- The address is in the font region 0x000..0x04F (R55, R58). -/
def inFont (a : Addr) : Bool := decide (a.toNat < fontEnd)

/-- The lowest font address among the targets of a store, if there is one (R55, R222). -/
def lowestFontTarget : List Addr → Option Addr
  | [] => none
  | a :: as =>
    if inFont a then
      match lowestFontTarget as with
      | none => some a
      | some b => some (if a.toNat ≤ b.toNat then a else b)
    else lowestFontTarget as

/-- `MemWrite(addr, 1, v)` past the FAULT check: a byte of the font region is written only under WRITE (R55). -/
def Memory.storeByte (p : FontWritePolicy) (m : Memory) (a : Addr) (b : Byte) : Memory :=
  if inFont a && p != .write then m else m.write a b

/-- The bytes of a store, from offset r on: each at its own masked address, in order (R54, R153, R154). -/
def Memory.storeRun (p : FontWritePolicy) (m : Memory) (base : Word) (r : Nat) : List Byte → Memory
  | [] => m
  | b :: bs => Memory.storeRun p (m.storeByte p (dataAddr base r) b) base (r + 1) bs

/-! ### Entering a halt -/

/-- `raise Fatal(reason)`, the one way into a halt (R224): only the status changes, so the instruction writes nothing
and `pc` keeps its address. There is no return from a halt (R225), so no operation beside it undoes it. -/
def State.halt (s : State) (r : HaltReason) : State := s.setStatus (.halted r)

/-- The codes of the halt reasons (R222). -/
def HaltReason.code : HaltReason → Nat
  | .stopped _ => 1
  | .fetchOutOfBounds _ => 2
  | .stackOverflow _ _ => 3
  | .stackUnderflow _ _ => 4
  | .fontWrite _ _ _ => 5
  | .loadFailed => 6

/-- The code of a status; RUNNING has none and is 0 (R222). -/
def Status.code : Status → Nat
  | .running => 0
  | .halted r => r.code

/-! ### A store of several bytes -/

/-- The store of LD B,Vx and LD [I],Vx (R55, R153, R154): all targets are computed first; under FAULT a font target
halts the instruction before any byte is written, recording pc, the word and the lowest font target; otherwise every
byte is stored under the policy and pc advances. -/
def State.storeBytes (s : State) (word : Word) (bytes : List Byte) : State :=
  match s.config.fontWritePolicy, lowestFontTarget (dataAddrs s.I bytes.length) with
  | .fault, some a => s.halt (.fontWrite s.pc word a)
  | p, _ => (s.setMem (s.mem.storeRun p s.I 0 bytes)).advance

/-- The registers after LD Vx,[I]: V0 to Vx from memory, the others as they were (R155). -/
def State.loadedRegs (s : State) (x : Reg) : Vector Byte 16 :=
  Vector.ofFn (fun r : Fin 16 => if r ≤ x then s.mem.read (dataAddr s.I r.val) else s.reg r)

/-! ### The call stack -/

/-- `Push(v)` (R26); none is a stack overflow. -/
def State.push (s : State) (v : Word) : Option State :=
  if h : s.sp.val < 16 then some (s.setStack ⟨s.sp.val + 1, by omega⟩ (s.stack.set s.sp.val v h)) else none

/-- `Pop()` (R27): the popped value, and the state with `sp` one lower; the slot keeps its value (R28). None is a stack
underflow. -/
def State.pop (s : State) : Option (Word × State) :=
  if h : 0 < s.sp.val then
    some (s.stack[s.sp.val - 1]'(by omega), s.setStack ⟨s.sp.val - 1, by omega⟩ s.stack)
  else none

/-! ### The display -/

/-- `disp[x][y]` (R13, R30). -/
def Display.pixel (d : Display) (x : Fin 64) (y : Fin 32) : Bool := (d.get y).get x

/-- `disp[x][y] <- disp[x][y] xor 1` (R172). -/
def Display.flip (d : Display) (x : Fin 64) (y : Fin 32) : Display :=
  d.set y ((d.get y).set x (!(d.pixel x y)))

/-- A sprite draw in progress: the display and whether a pixel has collided (R172). -/
structure Blit where
  disp : Display
  collided : Bool
  deriving DecidableEq, Repr

/-- The column a sprite pixel lands at: start coordinate plus column offset, wrapped modulo 64 (R171). -/
def spriteColumn (cx : Byte) (c : Nat) : Fin 64 := Fin.ofNat 64 (cx.toNat + c)

/-- The row a sprite pixel lands at: start coordinate plus row offset, wrapped modulo 32 (R171). -/
def spriteRow (cy : Byte) (r : Nat) : Fin 32 := Fin.ofNat 32 (cy.toNat + r)

/-- The sprite bit at column offset c of a row: bit 7 is the leftmost pixel (R171; D16, log entry 7). -/
def spriteBit (row : Byte) (c : Nat) : Bool := row.getLsbD (7 - c)

/-- One sprite pixel: a set bit flips the pixel it covers and collides if that pixel was set (R172). -/
def Blit.plot (b : Blit) (bit : Bool) (px : Fin 64) (py : Fin 32) : Blit :=
  if bit then { disp := b.disp.flip px py, collided := b.collided || b.disp.pixel px py } else b

/-- One sprite row: column offsets 0 to 7 (R172). -/
def Blit.plotRow (b : Blit) (cx cy : Byte) (r : Nat) (row : Byte) : Blit :=
  (List.range 8).foldl (fun a c => a.plot (spriteBit row c) (spriteColumn cx c) (spriteRow cy r)) b

/-- A whole sprite: rows 0 to n-1, row r read at (I + r) & 0x0FFF (R171, R172). -/
def Blit.plotSprite (b : Blit) (m : Memory) (base : Word) (cx cy : Byte) (n : Nat) : Blit :=
  (List.range n).foldl (fun a r => a.plotRow cx cy r (m.read (dataAddr base r))) b

end Sys2Proof.Machine
end

