-- ==== Sys2Proof/Machine/Boot.lean ====
section
/-! DEFINITION. Loading (70_reset_and_hazards.md R262 to R264), and the placing of one instruction word where the
engine fetches next (the host's entry). -/

namespace Sys2Proof.Machine

/-- Bytes copied to memory from address `at` on, rising (R262); the loader is not under the font policy. -/
def Memory.copyIn (m : Memory) (start : Nat) : List Byte → Memory
  | [] => m
  | b :: bs => Memory.copyIn (m.write (BitVec.ofNat 12 start) b) (start + 1) bs

/-- The loader (R262, R263): none is an image that cannot be opened; it and an image of no byte halt the core with
LOAD_FAILED before the first transition. Bytes past 3584 are dropped. -/
def State.load (s : State) (image : Option (List Byte)) : State :=
  match image with
  | none => s.halt .loadFailed
  | some [] => s.halt .loadFailed
  | some (b :: bs) => s.setMem (s.mem.copyIn programBase ((b :: bs).take imageCapacity))

/-- Construction (R260, R261) with the parameters of R10, FONT_DATA preloaded at 0x000..0x04F (R57, R264);
`State.reset` is the construction with the spec's defaults (`construct_default`). -/
def construct (c : Config) : State :=
  { State.reset with config := c, mem := Memory.copyIn State.reset.mem fontBase c.fontData.toList }

/-- Construct, preload the font, load (R264). -/
def boot (c : Config) (image : Option (List Byte)) : State := (construct c).load image

/-- The state with word `w` stored where the engine fetches its next instruction, and set so that the very next
transition is the Step that runs it: the core runs, no key wait is held, no environment transition comes first, and a
pc no fetch can read from (R52) is moved to 0x200. It stands for the loader (log entry 5). -/
def State.placeWord (s : State) (w : Word) : State :=
  let pc : Word := if s.pc.toNat + 1 > 0x0FFF then BitVec.ofNat 16 programBase else s.pc
  let m := s.mem.copyIn pc.toNat [highByte w, lowByte w]
  ((((s.setMem m).setPc pc).setStatus .running).setWait .none).setSchedule []

end Sys2Proof.Machine
end

