-- ==== Sys2Proof/Machine/Flags.lean ====
section
/-! DEFINITION. The flag VF: what each instruction that writes it as a flag writes, and when (41_alu.md R120, R121;
10_state.md R21). -/

namespace Sys2Proof.Machine

/-- A flag as the byte written to VF (R128: `? 1 : 0`). -/
def flagByte (f : Bool) : Byte := if f then 1 else 0

/-- The carry of ADD Vx,Vy: the exact sum is over 255 (R128). -/
def carryOut (a b : Byte) : Bool := decide (a.toNat + b.toNat > 255)

/-- The borrow-avoided flag of a - b: a >= b (R129, R131). -/
def noBorrow (a b : Byte) : Bool := decide (a.toNat ≥ b.toNat)

/-- The bit SHR shifts out: bit 0 of the source (R130). -/
def shiftedOutRight (src : Byte) : Bool := src.getLsbD 0

/-- The bit SHL shifts out: bit 7 of the source (R132). -/
def shiftedOutLeft (src : Byte) : Bool := src.getLsbD 7

/-- The order of the flag writes (R121; D6): the result to V[x], then the flag to VF, so the flag wins when x = F. -/
def State.writeResultThenFlag (s : State) (x : Reg) (r : Byte) (f : Bool) : State :=
  (s.setV x r).setV flagReg (flagByte f)

end Sys2Proof.Machine
end

