-- ==== Sys2Proof/Machine/Alu.lean ====
section
/-! DEFINITION. Register loads, ALU and random (41_alu.md). Every instruction here ends with pc <- pc + 2. -/

namespace Sys2Proof.Machine

/-- LD Vx,kk (R122). -/
def execLdVxKk (x : Reg) (kk : Byte) (s : State) : Host.Outcome State Fault Refusal :=
  .next (s.setV x kk).advance

/-- ADD Vx,kk (R123): the sum modulo 256, no flag. -/
def execAddVxKk (x : Reg) (kk : Byte) (s : State) : Host.Outcome State Fault Refusal :=
  .next (s.setV x (s.reg x + kk)).advance

/-- LD Vx,Vy (R124). -/
def execLdVxVy (x y : Reg) (s : State) : Host.Outcome State Fault Refusal :=
  .next (s.setV x (s.reg y)).advance

/-- OR Vx,Vy (R125): no flag (D8). -/
def execOrVxVy (x y : Reg) (s : State) : Host.Outcome State Fault Refusal :=
  .next (s.setV x (s.reg x ||| s.reg y)).advance

/-- AND Vx,Vy (R126): no flag (D8). -/
def execAndVxVy (x y : Reg) (s : State) : Host.Outcome State Fault Refusal :=
  .next (s.setV x (s.reg x &&& s.reg y)).advance

/-- XOR Vx,Vy (R127): no flag (D8). -/
def execXorVxVy (x y : Reg) (s : State) : Host.Outcome State Fault Refusal :=
  .next (s.setV x (s.reg x ^^^ s.reg y)).advance

/-- ADD Vx,Vy (R128): VF is the carry. -/
def execAddVxVy (x y : Reg) (s : State) : Host.Outcome State Fault Refusal :=
  let a := s.reg x
  let b := s.reg y
  .next (s.writeResultThenFlag x (a + b) (carryOut a b)).advance

/-- SUB Vx,Vy (R129): VF is Vx >= Vy. -/
def execSubVxVy (x y : Reg) (s : State) : Host.Outcome State Fault Refusal :=
  let a := s.reg x
  let b := s.reg y
  .next (s.writeResultThenFlag x (a - b) (noBorrow a b)).advance

/-- SHR Vx,Vy (R130): VF is the bit shifted out of the source (SHIFT_SOURCE). -/
def execShrVxVy (x y : Reg) (s : State) : Host.Outcome State Fault Refusal :=
  let src := shiftOperand s x y
  .next (s.writeResultThenFlag x (src >>> 1) (shiftedOutRight src)).advance

/-- SUBN Vx,Vy (R131): VF is Vy >= Vx. -/
def execSubnVxVy (x y : Reg) (s : State) : Host.Outcome State Fault Refusal :=
  let a := s.reg x
  let b := s.reg y
  .next (s.writeResultThenFlag x (b - a) (noBorrow b a)).advance

/-- SHL Vx,Vy (R132): VF is the bit shifted out of the source (SHIFT_SOURCE). -/
def execShlVxVy (x y : Reg) (s : State) : Host.Outcome State Fault Refusal :=
  let src := shiftOperand s x y
  .next (s.writeResultThenFlag x (src <<< 1) (shiftedOutLeft src)).advance

/-- RND Vx,kk (R133): a draw under the mask. The draw is a FREE VALUE (log entry 2). -/
def execRndVxKk (x : Reg) (kk : Byte) (s : State) : Host.Outcome State Fault Refusal :=
  .next (s.countDraw.setV x (Config.randomDraw s.draws &&& kk)).advance

end Sys2Proof.Machine
end

