-- ==== Sys2Proof/Machine/Flow.lean ====
section
/-! DEFINITION. Control transfer and skips (40_flow.md): RET, JP, CALL, the four skips, JP V0. The word a halt records
(R222) is the instruction's own encoding (R81: each mnemonic stands for exactly one encoding family;
log entry 10). -/

namespace Sys2Proof.Machine

/-- RET (R100): pc <- Pop(), no +2; STACK_UNDERFLOW when sp = 0. -/
def execRet (s : State) : Host.Outcome State Fault Refusal :=
  match s.pop with
  | some (target, t) => .next (t.setPc target)
  | none => .next (s.halt (.stackUnderflow s.pc (encode .ret)))

/-- JP nnn (R101). -/
def execJpNnn (nnn : Addr) (s : State) : Host.Outcome State Fault Refusal :=
  .next (s.setPc (addrImmediate nnn))

/-- CALL nnn (R102): Push(pc + 2), pc <- nnn; STACK_OVERFLOW when sp = 16. -/
def execCallNnn (nnn : Addr) (s : State) : Host.Outcome State Fault Refusal :=
  match s.push (s.pc + 2) with
  | some t => .next (t.setPc (addrImmediate nnn))
  | none => .next (s.halt (.stackOverflow s.pc (encode (.callNnn nnn))))

/-- SE Vx,kk (R103). -/
def execSeVxKk (x : Reg) (kk : Byte) (s : State) : Host.Outcome State Fault Refusal :=
  .next (s.skipIf (s.reg x == kk))

/-- SNE Vx,kk (R104). -/
def execSneVxKk (x : Reg) (kk : Byte) (s : State) : Host.Outcome State Fault Refusal :=
  .next (s.skipIf (s.reg x != kk))

/-- SE Vx,Vy (R105). -/
def execSeVxVy (x y : Reg) (s : State) : Host.Outcome State Fault Refusal :=
  .next (s.skipIf (s.reg x == s.reg y))

/-- SNE Vx,Vy (R106). -/
def execSneVxVy (x y : Reg) (s : State) : Host.Outcome State Fault Refusal :=
  .next (s.skipIf (s.reg x != s.reg y))

/-- JP V0,nnn (R107): pc <- nnn + V0, not masked. -/
def execJpV0Nnn (nnn : Addr) (s : State) : Host.Outcome State Fault Refusal :=
  .next (s.setPc (jumpOffsetTarget nnn (s.reg 0)))

end Sys2Proof.Machine
end

