-- ==== Sys2Proof/Machine/IndexMemory.lean ====
section
/-! DEFINITION. Address register, loads and stores (42_index_memory.md). `I` is never masked; each access masks its
own address (R54). -/

namespace Sys2Proof.Machine

/-- LD I,nnn (R150). -/
def execLdINnn (nnn : Addr) (s : State) : Host.Outcome State Fault Refusal :=
  .next (s.setI (addrImmediate nnn)).advance

/-- ADD I,Vx (R151): modulo 2^16, no flag. -/
def execAddIVx (x : Reg) (s : State) : Host.Outcome State Fault Refusal :=
  .next (s.setI (s.I + byteToWord (s.reg x))).advance

/-- LD F,Vx (R152): I <- Vx * 5, no nibble mask. -/
def execLdFVx (x : Reg) (s : State) : Host.Outcome State Fault Refusal :=
  .next (s.setI (glyphAddr (s.reg x))).advance

/-- LD B,Vx (R153): the three decimal digits of Vx at I, I+1, I+2; FONT_WRITE under policy FAULT. -/
def execLdBVx (x : Reg) (s : State) : Host.Outcome State Fault Refusal :=
  .next (s.storeBytes (encode (.ldBVx x)) (decimalDigits (s.reg x)))

/-- LD [I],Vx (R154): V0 to Vx at I, I+1, ...; FONT_WRITE under policy FAULT. -/
def execLdMemIVx (x : Reg) (s : State) : Host.Outcome State Fault Refusal :=
  .next (s.storeBytes (encode (.ldMemIVx x)) (dumpBytes s x))

/-- LD Vx,[I] (R155): V0 to Vx from I, I+1, ...; reads never fault. -/
def execLdVxMemI (x : Reg) (s : State) : Host.Outcome State Fault Refusal :=
  .next (s.setRegs (s.loadedRegs x)).advance

end Sys2Proof.Machine
end

