-- ==== Sys2Proof/Machine/KeysTimers.lean ====
section
/-! DEFINITION. Keypad and timer instructions (44_keys_timers.md). -/

namespace Sys2Proof.Machine

/-- SKP Vx (R190). -/
def execSkpVx (x : Reg) (s : State) : Host.Outcome State Fault Refusal :=
  .next (s.skipIf (keyHeld s.keys (s.reg x)))

/-- SKNP Vx (R191). -/
def execSknpVx (x : Reg) (s : State) : Host.Outcome State Fault Refusal :=
  .next (s.skipIf (!keyHeld s.keys (s.reg x)))

/-- LD Vx,DT (R192). -/
def execLdVxDt (x : Reg) (s : State) : Host.Outcome State Fault Refusal :=
  .next (s.setV x s.DT).advance

/-- LD Vx,K (R193): the engine starts to wait and pc is not advanced; the key press of R196 completes it
(Machine/Environment.lean, `keyPress`). -/
def execLdVxK (x : Reg) (s : State) : Host.Outcome State Fault Refusal :=
  .next (s.setWait (.awaiting x))

/-- LD DT,Vx (R194). -/
def execLdDtVx (x : Reg) (s : State) : Host.Outcome State Fault Refusal :=
  .next (s.setDT (s.reg x)).advance

/-- LD ST,Vx (R195): never emits the sound cue (D15). -/
def execLdStVx (x : Reg) (s : State) : Host.Outcome State Fault Refusal :=
  .next (s.setST (s.reg x)).advance

end Sys2Proof.Machine
end

