-- ==== Sys2Proof/Machine/Sprite.lean ====
section
/-! DEFINITION. The two writers of the display (43_display.md R174): CLS and DRW. -/

namespace Sys2Proof.Machine

/-- CLS (R170): every pixel unset, VF unchanged. -/
def execCls (s : State) : Host.Outcome State Fault Refusal :=
  .next (s.setDisp Display.clear).advance

/-- DRW Vx,Vy,n (R172): both coordinates are read before VF is written; VF is the OR of all collisions. -/
def execDrwVxVyN (x y : Reg) (n : Nibble) (s : State) : Host.Outcome State Fault Refusal :=
  let b := Blit.plotSprite { disp := s.disp, collided := false } s.mem s.I (s.reg x) (s.reg y) n.toNat
  .next ((s.setDisp b.disp).setV flagReg (flagByte b.collided)).advance

end Sys2Proof.Machine
end

