-- ==== Sys2Proof/Machine/Environment.lean ====
section
/-! DEFINITION. The transitions the environment starts (60_exceptions.md R240): Tick, SetKeys, KeyPress and Stop. Each
is what it does while `status = RUNNING`; Machine/Engine.lean takes none of them after a halt (R224). -/

namespace Sys2Proof.Machine

/-- One timer, one tick: down by one, never below zero (R230). -/
def countDown (t : Byte) : Byte := if t = 0 then 0 else t - 1

/-- Tick (R230): both timers count down; the cue is emitted exactly when ST goes from 1 to 0 (R231). -/
def tick (s : State) : State :=
  let t := (s.setDT (countDown s.DT)).setST (countDown s.ST)
  if s.ST = 1 then t.emit .soundCue else t

/-- SetKeys(k16) (R246): all 16 key states at once. -/
def setKeys (k16 : BitVec 16) (s : State) : State := s.setKeys k16

/-- KeyPress(k) (R196): completes a waiting LD Vx,K; with no wait it has no effect. It does not write `keys`. -/
def keyPress (k : Key) (s : State) : State :=
  match s.wait with
  | .awaiting x => ((s.setV x (BitVec.ofNat 8 k.val)).setWait .none).advance
  | .none => s

/-- Stop (R228): HALTED(STOPPED) recording pc; everything else keeps its value, the wait included
(log entry 16). -/
def stop (s : State) : State := s.halt (.stopped s.pc)

end Sys2Proof.Machine
end

