-- ==== Sys2Proof/Machine/Engine.lean ====
section
/-! DEFINITION. The engine's step and the interface's transitions (30_encoding.md R77, R78; 60_exceptions.md R240). -/

namespace Sys2Proof.Machine

/-- `Fetch(pc)` (R52): big-endian, unmasked; none when pc + 1 > 0x0FFF. -/
def fetch (s : State) : Option Word :=
  if s.pc.toNat + 1 > 0x0FFF then none
  else some (wordOfBytes (s.mem.read (BitVec.ofNat 12 s.pc.toNat)) (s.mem.read (BitVec.ofNat 12 (s.pc.toNat + 1))))

/-- An unmapped word (R78, R227): reported, and otherwise a no-op. -/
def execUnknown (w : Word) (s : State) : Host.Outcome State Fault Refusal :=
  .next (s.emit (.unknownOpcode s.pc w)).advance

/-- Step (R77) of a running core: fetch, decode, execute. While a key wait holds no Step is enabled and the core stays
as it is (R193, R253; log entry 8). -/
def engineStep (s : State) : Host.Outcome State Fault Refusal :=
  match s.wait with
  | .awaiting _ => .next s
  | .none =>
    match fetch s with
    | none => .next (s.halt (.fetchOutOfBounds s.pc))
    | some w =>
      match decode w with
      | .ok i => exec i s
      | .error _ => execUnknown w s

/-- One transition of R240, the core running. -/
def takeTransition (t : Transition) (s : State) : Host.Outcome State Fault Refusal :=
  match t with
  | .step => engineStep s
  | .tick => .next (tick s)
  | .setKeys k16 => .next (setKeys k16 s)
  | .keyPress k => .next (keyPress k s)
  | .stop => .next (stop s)

/-- The next transition: after a halt there is none (R224); otherwise the oldest of the environment's schedule, and
Step when the schedule is empty (R243; log entry 1). -/
def runNext (s : State) : Host.Outcome State Fault Refusal :=
  match s.status with
  | .halted r => .fault (.halted r)
  | .running =>
    match s.schedule with
    | [] => engineStep s
    | t :: ts => takeTransition t (s.setSchedule ts)

end Sys2Proof.Machine
end

