-- ==== Sys2Proof/Machine/Step.lean ====
section
/-! DEFINITION. One step of the machine: the next of the five transitions of 60_exceptions.md R240 (Machine/Engine.lean
says which). -/

namespace Sys2Proof.Machine

/-- One step: the next transition of the core. -/
def step (s : State) : Host.Outcome State Fault Refusal := runNext s

/-- The host's entry: the instruction whose bits are `w` (numbered as spec/opcode_table.json, those from `nbits` up
zero) stored where `step` fetches next. -/
def State.withFetchWord (s : State) (nbits w : Nat) : State := s.placeWord (BitVec.ofNat 16 (w % 2 ^ nbits))

end Sys2Proof.Machine
end

