-- ==== Sys2Proof/Machine/Scheduler.lean ====
section
/-! DEFINITION. The reference scheduler (60_exceptions.md R241, R242; D27): environment, informative in the spec. It
only takes transitions of R240, in one of the orders R243 admits; `step` does not depend on it. Time is a Nat of units
of 1 / (INSTR_RATE_HZ * TIMER_RATE_HZ) seconds, so that both periods are whole numbers (log entry 13). -/

namespace Sys2Proof.Machine

/-- Take one transition of R240 if the core runs; after a halt none is enabled (R224). -/
def State.take (s : State) (t : Transition) : State :=
  match s.status with
  | .halted _ => s
  | .running =>
    match takeTransition t s with
    | .next s' => s'
    | _ => s

/-- The core under a scheduler: its state, and every transition the scheduler has taken, oldest first. -/
structure Run where
  core : State
  taken : List Transition
  deriving DecidableEq, Repr

/-- A run that has taken nothing yet. -/
def Run.start (s : State) : Run := { core := s, taken := [] }

/-- `take` of R241's pseudocode: the core takes the transition and the run records it. -/
def Run.take (r : Run) (t : Transition) : Run := { core := r.core.take t, taken := r.taken ++ [t] }

/-- The two accumulators of R241 (environment state, R35). -/
structure Accumulators where
  accI : Nat
  accT : Nat
  deriving DecidableEq, Repr

/-- The start of R241: `acc_i <- 0; acc_t <- 0`. -/
def Accumulators.start : Accumulators := { accI := 0, accT := 0 }

/-- How often `while acc > p: acc <- acc - p` turns: "exceeds" is strictly greater (R241, D27).
For p = 0, which only a rate of 0 gives and for which the loop would not end, it is 0 (log entry 18). -/
def firings (acc p : Nat) : Nat := (acc - 1) / p

/-- One turn of the instruction loop (R241): refresh the keys, then a Step, or in a key wait the host's new key press. -/
def instrSlot (hostKeys : BitVec 16) (press : Option Key) (r : Run) : Run :=
  let r := r.take (.setKeys hostKeys)
  match r.core.wait, press with
  | .none, _ => r.take .step
  | .awaiting _, some k => r.take (.keyPress k)
  | .awaiting _, none => r

/-- What the host supplies to one outer iteration (R241): the stop flag, the elapsed time, and for each turn of the
instruction loop the host's keys and a new key press, if any. -/
structure HostInput where
  stopFlag : Bool
  elapsed : Nat
  slots : List (BitVec 16 × Option Key)
  deriving DecidableEq, Repr

/-- What the host supplies to turn j; a turn past the end of `slots` sees no key held and no press. -/
def HostInput.slot (h : HostInput) (j : Nat) : BitVec 16 × Option Key := h.slots.getD j (0, none)

/-- One outer iteration (R241), for an instruction rate and a timer rate in Hz. -/
def schedulerIteration (instrRate timerRate : Nat) (h : HostInput) (a : Accumulators) (r : Run) : Accumulators × Run :=
  if h.stopFlag then (a, r.take .stop)
  else
    let accI := a.accI + h.elapsed
    let accT := a.accT + h.elapsed
    let nI := firings accI timerRate
    let nT := firings accT instrRate
    let r := (List.range nI).foldl (fun r j => instrSlot (h.slot j).1 (h.slot j).2 r) r
    let r := (List.range nT).foldl (fun r _ => r.take .tick) r
    ({ accI := accI - nI * timerRate, accT := accT - nT * instrRate }, r)

/-- The outer loop of R241: one iteration for each host input, from the oldest on, until one with the stop flag set,
which takes Stop and ends the loop. A loop never stopped is the limit of its finite runs. -/
def schedulerLoop (instrRate timerRate : Nat) : List HostInput → Accumulators → Run → Accumulators × Run
  | [], a, r => (a, r)
  | h :: hs, a, r =>
    let next := schedulerIteration instrRate timerRate h a r
    if h.stopFlag then next else schedulerLoop instrRate timerRate hs next.1 next.2

/-- The reference scheduler from its start (R241), at the given rates. -/
def schedulerRun (instrRate timerRate : Nat) (hs : List HostInput) (s : State) : Accumulators × Run :=
  schedulerLoop instrRate timerRate hs Accumulators.start (Run.start s)

/-- One outer iteration at the spec's rates: INSTR_RATE_HZ is OPEN (a constant with no body), TIMER_RATE_HZ is 60
(R233). -/
def referenceIteration (h : HostInput) (a : Accumulators) (r : Run) : Accumulators × Run :=
  schedulerIteration Config.instrRateHz timerRateHz h a r

/-- Boot and run (R264): construct, load, then the reference scheduler from its start at the spec's rates. -/
def referenceRun (c : Config) (image : Option (List Byte)) (hs : List HostInput) : Accumulators × Run :=
  schedulerRun Config.instrRateHz timerRateHz hs (boot c image)

end Sys2Proof.Machine
end

