-- ==== Sys2Proof/WellFormed.lean ====
section
/-! DEFINITION. What is well formed: an instruction (30_encoding.md R72), and an instruction word (the opcode map of
R74, written here as the table's masks and matches, independently of Decode.lean). -/

namespace Sys2Proof

/-- One row of the opcode map (R74): a word is in the row when `word &&& mask = pattern`. -/
structure OpcodeRow where
  mask : Word
  pattern : Word
  deriving DecidableEq, Repr

/-- The word lies in the row (R74). -/
def OpcodeRow.holds (r : OpcodeRow) (w : Word) : Bool := (w &&& r.mask) == r.pattern

/-- The row of the opcode map an instruction belongs to: the mask and match columns of R74. -/
def rowOf : Instr → OpcodeRow
  | .cls => ⟨0xFFFF, 0x00E0⟩
  | .ret => ⟨0xFFFF, 0x00EE⟩
  | .jpNnn _ => ⟨0xF000, 0x1000⟩
  | .callNnn _ => ⟨0xF000, 0x2000⟩
  | .seVxKk _ _ => ⟨0xF000, 0x3000⟩
  | .sneVxKk _ _ => ⟨0xF000, 0x4000⟩
  | .seVxVy _ _ => ⟨0xF00F, 0x5000⟩
  | .ldVxKk _ _ => ⟨0xF000, 0x6000⟩
  | .addVxKk _ _ => ⟨0xF000, 0x7000⟩
  | .ldVxVy _ _ => ⟨0xF00F, 0x8000⟩
  | .orVxVy _ _ => ⟨0xF00F, 0x8001⟩
  | .andVxVy _ _ => ⟨0xF00F, 0x8002⟩
  | .xorVxVy _ _ => ⟨0xF00F, 0x8003⟩
  | .addVxVy _ _ => ⟨0xF00F, 0x8004⟩
  | .subVxVy _ _ => ⟨0xF00F, 0x8005⟩
  | .shrVxVy _ _ => ⟨0xF00F, 0x8006⟩
  | .subnVxVy _ _ => ⟨0xF00F, 0x8007⟩
  | .shlVxVy _ _ => ⟨0xF00F, 0x800E⟩
  | .sneVxVy _ _ => ⟨0xF00F, 0x9000⟩
  | .ldINnn _ => ⟨0xF000, 0xA000⟩
  | .jpV0Nnn _ => ⟨0xF000, 0xB000⟩
  | .rndVxKk _ _ => ⟨0xF000, 0xC000⟩
  | .drwVxVyN _ _ _ => ⟨0xF000, 0xD000⟩
  | .skpVx _ => ⟨0xF0FF, 0xE09E⟩
  | .sknpVx _ => ⟨0xF0FF, 0xE0A1⟩
  | .ldVxDt _ => ⟨0xF0FF, 0xF007⟩
  | .ldVxK _ => ⟨0xF0FF, 0xF00A⟩
  | .ldDtVx _ => ⟨0xF0FF, 0xF015⟩
  | .ldStVx _ => ⟨0xF0FF, 0xF018⟩
  | .addIVx _ => ⟨0xF0FF, 0xF01E⟩
  | .ldFVx _ => ⟨0xF0FF, 0xF029⟩
  | .ldBVx _ => ⟨0xF0FF, 0xF033⟩
  | .ldMemIVx _ => ⟨0xF0FF, 0xF055⟩
  | .ldVxMemI _ => ⟨0xF0FF, 0xF065⟩

/-- The opcode map: the 34 rows of R74 in the table's order. -/
def opcodeMap : List OpcodeRow :=
  [.cls, .ret, .jpNnn 0, .callNnn 0, .seVxKk 0 0, .sneVxKk 0 0, .seVxVy 0 0, .ldVxKk 0 0, .addVxKk 0 0].map rowOf ++
  [.ldVxVy 0 0, .orVxVy 0 0, .andVxVy 0 0, .xorVxVy 0 0, .addVxVy 0 0, .subVxVy 0 0, .shrVxVy 0 0,
    .subnVxVy 0 0, .shlVxVy 0 0].map rowOf ++
  [.sneVxVy 0 0, .ldINnn 0, .jpV0Nnn 0, .rndVxKk 0 0, .drwVxVyN 0 0 0, .skpVx 0, .sknpVx 0].map rowOf ++
  [.ldVxDt 0, .ldVxK 0, .ldDtVx 0, .ldStVx 0, .addIVx 0, .ldFVx 0, .ldBVx 0, .ldMemIVx 0, .ldVxMemI 0].map rowOf

/-- An instruction word is well formed when some row of the opcode map holds it; the others are the unmapped words
of R75. -/
def wordWellFormed (w : Word) : Bool := opcodeMap.any (fun r => r.holds w)

/-- An instruction is well formed when its word lies in its own row of the opcode map. The operand types leave no
operand out of range (R72: "every value names a register, so no register field is ever invalid"), so this holds of
every instruction (Laws/Decode.lean, `wellFormed_all`). -/
def Instr.wellFormed (i : Instr) : Bool := (rowOf i).holds (encode i)

end Sys2Proof
end

