-- ==== Sys2Proof/Safety.lean ====
section
/-! DEFINITION. The terms claims are stated in: the parts of the state and what a transition leaves unchanged; the ends
of a run (60_exceptions.md R229); the invariants; which pixel a sprite covers. -/

namespace Sys2Proof.Machine

/-! ### Frames -/

/-- One observable part of the state; memory, display, registers, stack slots and keys part by part. -/
inductive Part where
  | reg (x : Reg)
  | addressReg
  | pc
  | sp
  | slot (j : Fin 16)
  | delayTimer
  | soundTimer
  | pixel (x : Fin 64) (y : Fin 32)
  | key (k : Key)
  | wait
  | status
  | byte (a : Addr)
  | config
  | schedule
  | events
  | draws
  deriving DecidableEq, Repr

/-- The part has the same value in both states. -/
def Part.kept (s t : State) : Part → Prop
  | .reg x => t.reg x = s.reg x
  | .addressReg => t.I = s.I
  | .pc => t.pc = s.pc
  | .sp => t.sp = s.sp
  | .slot j => t.stack.get j = s.stack.get j
  | .delayTimer => t.DT = s.DT
  | .soundTimer => t.ST = s.ST
  | .pixel x y => t.disp.pixel x y = s.disp.pixel x y
  | .key k => t.keys.getLsbD k.val = s.keys.getLsbD k.val
  | .wait => t.wait = s.wait
  | .status => t.status = s.status
  | .byte a => t.mem.read a = s.mem.read a
  | .config => t.config = s.config
  | .schedule => t.schedule = s.schedule
  | .events => t.events = s.events
  | .draws => t.draws = s.draws

/-- Every part but those `changed` allows is the same in `t` as in `s`. -/
def Frame (changed : Part → Prop) (s t : State) : Prop := ∀ p, ¬ changed p → p.kept s t

/-! ### Ends of a run -/

/-- `HALTED(STOPPED)`, the only normal end (R229). -/
def State.endedNormally (s : State) : Bool :=
  match s.status with
  | .halted (.stopped _) => true
  | _ => false

/-- `HALTED` with a code from 2 to 6: a fault outcome (R229). -/
def State.faultHalted (s : State) : Bool := decide (2 ≤ s.status.code)

/-- The next transition is the engine's Step, and it is enabled (R77): the core runs, no key is awaited, and the
environment has nothing before it. -/
def State.readyToStep (s : State) : Prop := s.status = .running ∧ s.wait = .none ∧ s.schedule = []

/-- The transition is a SetKeys (R240). -/
def Transition.isSetKeys : Transition → Bool
  | .setKeys _ => true
  | .step | .tick | .keyPress _ | .stop => false

/-! ### Invariants -/

/-- The range of `pc` (R23): below 0x10FF, and a waiting LD Vx,K was fetched, so its address is at most 0x0FFE. -/
def State.pcInRange (s : State) : Prop :=
  s.pc.toNat < 0x10FF ∧ ∀ x, s.wait = .awaiting x → s.pc.toNat ≤ 0x0FFE

/-- Every stack slot holds zero or a return address, at most 0x1000 (R23, R102). -/
def State.stackInRange (s : State) : Prop := ∀ j, (s.stack.get j).toNat ≤ 0x1000

/-- The font region holds FONT_DATA, the bytes preloaded at construction (R55, R57). -/
def State.fontIntact (s : State) : Prop := ∀ (a : Addr) (h : a.toNat < 80), s.mem.read a = s.config.fontData[a.toNat]

/-- The invariant of the machine: memory canonical, `pc` and the stacked addresses in range, and, unless the policy is
WRITE, the font intact. -/
structure State.Inv (s : State) : Prop where
  memory : s.mem.wf = true
  pc : s.pcInRange
  stack : s.stackInRange
  font : s.config.fontWritePolicy ≠ .write → s.fontIntact

/-! ### What an instruction may write (whole-machine rules) -/

/-- The instructions that write VF as a flag (R21). -/
def writesFlag : Instr → Bool
  | .addVxVy _ _ | .subVxVy _ _ | .shrVxVy _ _ | .subnVxVy _ _ | .shlVxVy _ _ | .drwVxVyN _ _ _ => true
  | .cls | .ret | .jpNnn _ | .callNnn _ | .jpV0Nnn _ => false
  | .seVxKk _ _ | .sneVxKk _ _ | .seVxVy _ _ | .sneVxVy _ _ | .skpVx _ | .sknpVx _ => false
  | .ldVxKk _ _ | .addVxKk _ _ | .ldVxVy _ _ | .orVxVy _ _ | .andVxVy _ _ | .xorVxVy _ _ | .rndVxKk _ _ => false
  | .ldINnn _ | .addIVx _ | .ldFVx _ | .ldBVx _ | .ldMemIVx _ | .ldVxMemI _ => false
  | .ldVxDt _ | .ldVxK _ | .ldDtVx _ | .ldStVx _ => false

/-- Register r is a named destination of the instruction's step: V[x] of the loads, the ALU operations and RND, and V0
to Vx of LD Vx,[I] (R20 to R21). LD Vx,K names Vx too, but the key press writes it (R196), not the step. -/
def namesDestination (i : Instr) (r : Reg) : Prop :=
  match i with
  | .ldVxKk x _ | .addVxKk x _ | .rndVxKk x _ | .ldVxDt x => r = x
  | .ldVxVy x _ | .orVxVy x _ | .andVxVy x _ | .xorVxVy x _ => r = x
  | .addVxVy x _ | .subVxVy x _ | .shrVxVy x _ | .subnVxVy x _ | .shlVxVy x _ => r = x
  | .ldVxMemI x => r ≤ x
  | .cls | .ret | .jpNnn _ | .callNnn _ | .jpV0Nnn _ | .drwVxVyN _ _ _ => False
  | .seVxKk _ _ | .sneVxKk _ _ | .seVxVy _ _ | .sneVxVy _ _ | .skpVx _ | .sknpVx _ => False
  | .ldINnn _ | .addIVx _ | .ldFVx _ | .ldBVx _ | .ldMemIVx _ => False
  | .ldVxK _ | .ldDtVx _ | .ldStVx _ => False

/-- The instructions whose `pc` is not the generic pc + 2 of R76: jumps, CALL, RET, the skips and LD Vx,K. -/
def setsPcItself : Instr → Bool
  | .ret | .jpNnn _ | .callNnn _ | .jpV0Nnn _ | .ldVxK _ => true
  | .seVxKk _ _ | .sneVxKk _ _ | .seVxVy _ _ | .sneVxVy _ _ | .skpVx _ | .sknpVx _ => true
  | .ldVxKk _ _ | .addVxKk _ _ | .ldVxVy _ _ | .orVxVy _ _ | .andVxVy _ _ | .xorVxVy _ _ | .rndVxKk _ _ => false
  | .addVxVy _ _ | .subVxVy _ _ | .shrVxVy _ _ | .subnVxVy _ _ | .shlVxVy _ _ => false
  | .cls | .drwVxVyN _ _ _ => false
  | .ldINnn _ | .addIVx _ | .ldFVx _ | .ldBVx _ | .ldMemIVx _ | .ldVxMemI _ => false
  | .ldVxDt _ | .ldDtVx _ | .ldStVx _ => false

/-! ### Stores -/

/-- `a` is byte address r of a data access at `base`, `(I + r) & 0x0FFF` (R54, R59). -/
def isTargetAt (base : Word) (r : Nat) (a : Addr) : Prop := a.toNat = (base.toNat + r) % 4096

/-- `a` is one of the first n addresses of a data access at `base` (R54, R59). -/
def isTarget (base : Word) (n : Nat) (a : Addr) : Prop := ∃ r, r < n ∧ isTargetAt base r a

/-- A store of n bytes at I passes the font check (R55): the policy is not FAULT, or no target lies in 0x000..0x04F. -/
def State.storeAllowed (s : State) (n : Nat) : Prop :=
  s.config.fontWritePolicy = .fault → ∀ a, isTarget s.I n a → 0x050 ≤ a.toNat

/-- Byte address `a` is held back by the policy (R55): it lies in the font region and the policy is not WRITE. -/
def State.heldBack (s : State) (a : Addr) : Prop := a.toNat < 0x050 ∧ s.config.fontWritePolicy ≠ .write

/-- What a store of n bytes that is stopped by the font check does (R55, R222, R224): only the status changes, to
FONT_WRITE with pc, the word and the lowest font target. -/
def HaltsOnFontWrite (s t : State) (n : Nat) (word : Word) : Prop :=
  (∃ a, isTarget s.I n a ∧ a.toNat < 0x050 ∧ (∀ b, isTarget s.I n b → a.toNat ≤ b.toNat) ∧
    t.status = .halted (.fontWrite s.pc word a)) ∧
  Frame (fun p => p = .status) s t

/-! ### Sprites -/

/-- The sprite of `n` rows at `base` drawn at (cx, cy) has a set bit on pixel (px, py) (R171): some row r and column
offset c land there and bit 7-c of that row's byte is 1. -/
def spriteCovers (m : Memory) (base : Word) (cx cy : Byte) (n : Nat) (px : Fin 64) (py : Fin 32) : Prop :=
  ∃ r c, r < n ∧ c < 8 ∧ (m.read (dataAddr base r)).getLsbD (7 - c) = true ∧
    px.val = (cx.toNat + c) % 64 ∧ py.val = (cy.toNat + r) % 32

end Sys2Proof.Machine
end

