-- ==== Sys2Proof/Certificates/Slice0/Obligations.lean ====
section
/-! DEFINITION. The statements for the provers, in the order of spec/'s files: state and reset, memory, decode, flow,
ALU, address register, display, keypad and timers, halts, environment. -/

open Sys2Proof Sys2Proof.Machine

/-! ### State, reset, loading -/

/-- R38: what construction leaves: at reset, with the default parameters (the font bytes are R56's default, log entry
6), and with any others (log entry 3), where FONT_DATA is preloaded at 0x000..0x04F (R57, R264). -/
def Obligations.ResetStateValues : Prop :=
  (∀ x, State.reset.reg x = 0) ∧ State.reset.I = 0 ∧ State.reset.pc = 0x200 ∧ State.reset.sp = 0 ∧
  (∀ j, State.reset.stack.get j = 0) ∧ State.reset.DT = 0 ∧ State.reset.ST = 0 ∧
  (∀ x y, State.reset.disp.pixel x y = false) ∧ (∀ k : Key, State.reset.keys.getLsbD k.val = false) ∧
  State.reset.wait = .none ∧ State.reset.status = .running ∧
  (∀ a : Addr, State.reset.mem.read a = if a.toNat < 0x050 then defaultFont.getD a.toNat 0 else 0) ∧
  construct defaultConfig = State.reset ∧
  ∀ c : Config, (construct c).config = c ∧
    (∀ (a : Addr) (h : a.toNat < 80), (construct c).mem.read a = c.fontData[a.toNat]) ∧
    Frame (fun p => p = .config ∨ ∃ a, a.toNat < 0x050 ∧ p = .byte a) State.reset (construct c)

/-- R262, R263: loading an image writes its first 3584 bytes at 0x200 and changes nothing else; an image that cannot be
opened or holds no byte halts with LOAD_FAILED, and then no step is taken (the step answers the fault of log entry 9). -/
def Obligations.LoaderCopiesImageOrHalts : Prop :=
  (∀ (s : State) (b : Byte) (bs : List Byte),
    (∀ (a : Addr) (j : Nat), j < min (bs.length + 1) 3584 → a.toNat = 0x200 + j →
      (s.load (some (b :: bs))).mem.read a = (b :: bs).getD j 0) ∧
    Frame (fun p => ∃ (a : Addr) (j : Nat), j < min (bs.length + 1) 3584 ∧ a.toNat = 0x200 + j ∧ p = .byte a)
      s (s.load (some (b :: bs)))) ∧
  (∀ (s : State) (image : Option (List Byte)), image = none ∨ image = some [] →
    (s.load image).status = .halted .loadFailed ∧ Frame (fun p => p = .status) s (s.load image) ∧
      step (s.load image) = .fault (.halted .loadFailed))

/-- The invariant (memory canonical, pc and stack in range, the font intact unless the policy is WRITE) holds at
reset, and after construction with any parameters. -/
def Obligations.ResetMeetsInvariant : Prop := State.reset.Inv ∧ ∀ c : Config, (construct c).Inv

/-- Every step, the environment's transitions included, keeps the invariant. -/
def Obligations.StepKeepsInvariant : Prop := ∀ s t : State, s.Inv → step s = .next t → t.Inv

/-- R55: unless the policy is WRITE, no step changes a byte of the font region, whatever font bytes stand there. -/
def Obligations.FontRegionIsNeverOverwritten : Prop :=
  ∀ (s t : State) (a : Addr), step s = .next t → s.config.fontWritePolicy ≠ .write → a.toNat < 0x050 →
    t.mem.read a = s.mem.read a

/-- No step changes the parameters the machine is built with (model's own field, log entry 3). -/
def Obligations.ParametersNeverChange : Prop := ∀ s t : State, step s = .next t → t.config = s.config

/-- Equal memories are equal data: two canonical memories that read alike are the same list (log entry 11). -/
def Obligations.CanonicalMemoryIsUnique : Prop :=
  ∀ m m' : Memory, m.wf = true → m'.wf = true → (∀ a, m.read a = m'.read a) → m = m'

/-! ### Encoding -/

/-- R82: decoding the word of an instruction gives the instruction, every operand at every value. -/
def Obligations.DecodeOfEncode : Prop := ∀ i : Instr, i.wellFormed = true → decode (encode i) = .ok i

/-- R81: each instruction is read from one word alone, so the word of a decoded instruction is the word decoded. -/
def Obligations.EncodeOfDecode : Prop := ∀ (w : Word) (i : Instr), decode w = .ok i → encode i = w

/-- R74: a word is decoded exactly when a row of the opcode map holds it, to the instruction of that row, and no word
lies in two rows. -/
def Obligations.DecoderFollowsOpcodeMap : Prop :=
  (∀ w : Word, wordWellFormed w = true ↔ ∃ i, decode w = .ok i) ∧
  (∀ (w : Word) (i : Instr), decode w = .ok i → w &&& (rowOf i).mask = (rowOf i).pattern ∧ rowOf i ∈ opcodeMap) ∧
  (∀ w : Word, ∀ r ∈ opcodeMap, ∀ r' ∈ opcodeMap, r.holds w = true → r'.holds w = true → r = r')

/-- R75: the unmapped words, family by family. -/
def Obligations.UnmappedWordsByFamily : Prop :=
  ∀ w : Word,
    (decode w = .error .unmapped0 ↔ w.toNat / 4096 = 0 ∧ w.toNat ≠ 0x00E0 ∧ w.toNat ≠ 0x00EE) ∧
    (decode w = .error .unmapped5 ↔ w.toNat / 4096 = 5 ∧ w.toNat % 16 ≠ 0) ∧
    (decode w = .error .unmapped8 ↔ w.toNat / 4096 = 8 ∧ w.toNat % 16 ∈ [0x8, 0x9, 0xA, 0xB, 0xC, 0xD, 0xF]) ∧
    (decode w = .error .unmapped9 ↔ w.toNat / 4096 = 9 ∧ w.toNat % 16 ≠ 0) ∧
    (decode w = .error .unmappedE ↔ w.toNat / 4096 = 0xE ∧ w.toNat % 256 ∉ [0x9E, 0xA1]) ∧
    (decode w = .error .unmappedF ↔
      w.toNat / 4096 = 0xF ∧ w.toNat % 256 ∉ [0x07, 0x0A, 0x15, 0x18, 0x1E, 0x29, 0x33, 0x55, 0x65]) ∧
    decode w ≠ .error .truncated

/-- R74, R82: some words written out from the spec, at least one for each file of instructions. -/
def Obligations.SpecWordsDecode : Prop :=
  decode 0x00E0 = .ok .cls ∧ decode 0x00EE = .ok .ret ∧ decode 0x1234 = .ok (.jpNnn 0x234) ∧
  decode 0x2216 = .ok (.callNnn 0x216) ∧ decode 0x3310 = .ok (.seVxKk 3 0x10) ∧ decode 0x9120 = .ok (.sneVxVy 1 2) ∧
  decode 0x6005 = .ok (.ldVxKk 0 0x05) ∧ decode 0x8014 = .ok (.addVxVy 0 1) ∧ decode 0xA300 = .ok (.ldINnn 0x300) ∧
  decode 0xD125 = .ok (.drwVxVyN 1 2 5) ∧ decode 0xE59E = .ok (.skpVx 5) ∧ decode 0xF30A = .ok (.ldVxK 3) ∧
  decode 0xF265 = .ok (.ldVxMemI 2)

/-! ### Fetch and the step -/

/-- R52: a fetch inside memory reads two bytes big-endian, at an even or odd pc; at pc = 0x0FFF and above the Step halts
with FETCH_OUT_OF_BOUNDS and changes nothing but the status: with nothing scheduled, and with a scheduled Step, which is
taken off the schedule (the schedule is the model's own, log entry 1). -/
def Obligations.FetchReadsBigEndianOrHalts : Prop :=
  (∀ (s : State) (a b : Addr), a.toNat = s.pc.toNat → b.toNat = s.pc.toNat + 1 →
    ∃ w, fetch s = some w ∧ w.toNat = (s.mem.read a).toNat * 256 + (s.mem.read b).toNat) ∧
  (∀ s : State, s.status = .running → s.wait = .none → s.pc.toNat + 1 > 0x0FFF →
    (s.schedule = [] →
      ∃ t, step s = .next t ∧ t.status = .halted (.fetchOutOfBounds s.pc) ∧ Frame (fun p => p = .status) s t) ∧
    (∀ ts, s.schedule = .step :: ts →
      ∃ t, step s = .next t ∧ t.status = .halted (.fetchOutOfBounds s.pc) ∧ t.schedule = ts ∧
        Frame (fun p => p = .status ∨ p = .schedule) s t))

/-- R77: where the bytes at pc decode to a well-formed instruction, a step is `exec` of it: with nothing scheduled,
and with a scheduled Step, which is taken off the schedule (the schedule is the model's own, log entry 1). -/
def Obligations.StepRunsDecodedInstruction : Prop :=
  ∀ (s : State) (a b : Addr) (i : Instr) (rest : List Byte), s.status = .running → s.wait = .none →
    a.toNat = s.pc.toNat → b.toNat = s.pc.toNat + 1 →
    decodeBytes [s.mem.read a, s.mem.read b] = .ok (i, rest) → i.wellFormed = true →
    (s.schedule = [] → step s = exec i s) ∧
    (∀ ts, s.schedule = .step :: ts → step s = exec i (s.setSchedule ts))

/-- R78, R227: an unmapped word is reported with its address and is otherwise a no-op that advances pc: with nothing
scheduled, and with a scheduled Step, which is taken off the schedule (the event log and the schedule are the model's
own, log entries 4 and 1). -/
def Obligations.UnknownOpcodeIsReportedNoOp : Prop :=
  ∀ (s : State) (w : Word), s.status = .running → s.wait = .none → fetch s = some w → wordWellFormed w = false →
    (s.schedule = [] →
      ∃ t, step s = .next t ∧ t.events = s.events ++ [.unknownOpcode s.pc w] ∧ t.pc = s.pc + 2 ∧
        Frame (fun p => p = .pc ∨ p = .events) s t) ∧
    (∀ ts, s.schedule = .step :: ts →
      ∃ t, step s = .next t ∧ t.events = s.events ++ [.unknownOpcode s.pc w] ∧ t.pc = s.pc + 2 ∧ t.schedule = ts ∧
        Frame (fun p => p = .pc ∨ p = .events ∨ p = .schedule) s t)

/-- The host's placing of a word (log entry 5): the very next step runs exactly the instruction placed, from any
state. -/
def Obligations.PlacedWordRunsNext : Prop :=
  ∀ (s : State) (w : Nat) (i : Instr), decodeTableWord 16 w = some i →
    step (s.withFetchWord 16 w) = exec i (s.withFetchWord 16 w)

/-- R63: a byte a store writes is seen by a later fetch: two registers dumped to memory are fetched as a word. -/
def Obligations.StoredBytesAreFetched : Prop :=
  ∀ (s : State) (x r r' : Reg), r'.val = r.val + 1 → r' ≤ x → 0x050 ≤ s.I.toNat → s.I.toNat + x.val ≤ 0x0FFF →
    ∃ t w, exec (.ldMemIVx x) s = .next t ∧ fetch (t.setPc (s.I + BitVec.ofNat 16 r.val)) = some w ∧
      w.toNat = (s.reg r).toNat * 256 + (s.reg r').toNat

/-! ### Control transfer (40_flow.md) -/

/-- R100, R27: RET pops the return address into pc; with an empty stack it halts with STACK_UNDERFLOW, recording pc and
the word (R222), which is the instruction's encoding (log entry 10). -/
def Obligations.RetPopsReturnAddress : Prop :=
  ∀ s : State,
    (∀ j : Fin 16, s.sp.val = j.val + 1 →
      ∃ t, exec .ret s = .next t ∧ t.pc = s.stack.get j ∧ t.sp.val = j.val ∧ Frame (fun p => p = .pc ∨ p = .sp) s t) ∧
    (s.sp.val = 0 →
      ∃ t, exec .ret s = .next t ∧ t.status = .halted (.stackUnderflow s.pc 0x00EE) ∧
        Frame (fun p => p = .status) s t)

/-- R101, R107: JP nnn and JP V0,nnn set pc, the sum unmasked and never wrapping, and change nothing else. -/
def Obligations.JumpsSetPc : Prop :=
  ∀ (s : State) (nnn : Addr),
    (∃ t, exec (.jpNnn nnn) s = .next t ∧ t.pc.toNat = nnn.toNat ∧ Frame (fun p => p = .pc) s t) ∧
    (∃ t, exec (.jpV0Nnn nnn) s = .next t ∧ t.pc.toNat = nnn.toNat + (s.reg 0).toNat ∧ Frame (fun p => p = .pc) s t)

/-- R102, R26: CALL stacks the address after it and jumps; with 16 addresses stacked it halts with STACK_OVERFLOW,
recording pc and the word (R222), which is the instruction's encoding (log entry 10). -/
def Obligations.CallPushesReturnAddress : Prop :=
  ∀ (s : State) (nnn : Addr),
    (∀ j : Fin 16, s.sp.val = j.val →
      ∃ t, exec (.callNnn nnn) s = .next t ∧ t.stack.get j = s.pc + 2 ∧ t.sp.val = j.val + 1 ∧
        t.pc.toNat = nnn.toNat ∧ Frame (fun p => p = .pc ∨ p = .sp ∨ p = .slot j) s t) ∧
    (s.sp.val = 16 →
      ∃ t w, exec (.callNnn nnn) s = .next t ∧ t.status = .halted (.stackOverflow s.pc w) ∧
        w.toNat = 0x2000 + nnn.toNat ∧ Frame (fun p => p = .status) s t)

/-- R108 (the spec's own derivation): after a CALL, a RET from any state with the same sp and stack returns to the
CALL's address plus 2, at every depth. -/
def Obligations.CallThenRetReturnsAfterCall : Prop :=
  ∀ (s : State) (nnn : Addr), s.sp.val < 16 →
    ∃ t, exec (.callNnn nnn) s = .next t ∧
      ∀ u : State, u.sp = t.sp → u.stack = t.stack →
        ∃ v, exec .ret u = .next v ∧ v.pc = s.pc + 2 ∧ v.sp = s.sp

/-- R103, R104: the skips that compare a register with an immediate. -/
def Obligations.ImmediateSkips : Prop :=
  ∀ (s : State) (x : Reg) (kk : Byte),
    (∃ t, exec (.seVxKk x kk) s = .next t ∧ t.pc = (if s.reg x = kk then s.pc + 4 else s.pc + 2) ∧
      Frame (fun p => p = .pc) s t) ∧
    (∃ t, exec (.sneVxKk x kk) s = .next t ∧ t.pc = (if s.reg x = kk then s.pc + 2 else s.pc + 4) ∧
      Frame (fun p => p = .pc) s t)

/-- R105, R106: the skips that compare two registers; x = y always skips in SE and never in SNE. -/
def Obligations.RegisterSkips : Prop :=
  ∀ (s : State) (x y : Reg),
    (∃ t, exec (.seVxVy x y) s = .next t ∧ t.pc = (if s.reg x = s.reg y then s.pc + 4 else s.pc + 2) ∧
      Frame (fun p => p = .pc) s t) ∧
    (∃ t, exec (.sneVxVy x y) s = .next t ∧ t.pc = (if s.reg x = s.reg y then s.pc + 2 else s.pc + 4) ∧
      Frame (fun p => p = .pc) s t)

/-! ### Register loads, ALU and random (41_alu.md) -/

/-- R122, R123, R124: the loads, and the immediate add, which wraps and has no flag. -/
def Obligations.RegisterLoadsAndImmediateAdd : Prop :=
  ∀ (s : State) (x y : Reg) (kk : Byte),
    (∃ t, exec (.ldVxKk x kk) s = .next t ∧ t.reg x = kk ∧ t.pc = s.pc + 2 ∧
      Frame (fun p => p = .reg x ∨ p = .pc) s t) ∧
    (∃ t, exec (.addVxKk x kk) s = .next t ∧ (t.reg x).toNat = ((s.reg x).toNat + kk.toNat) % 256 ∧
      t.pc = s.pc + 2 ∧ Frame (fun p => p = .reg x ∨ p = .pc) s t) ∧
    (∃ t, exec (.ldVxVy x y) s = .next t ∧ t.reg x = s.reg y ∧ t.pc = s.pc + 2 ∧
      Frame (fun p => p = .reg x ∨ p = .pc) s t)

/-- R125, R126, R127: OR, AND and XOR, bit by bit; no flag, so VF changes only as Vx. -/
def Obligations.LogicOperations : Prop :=
  ∀ (s : State) (x y : Reg),
    (∃ t, exec (.orVxVy x y) s = .next t ∧
      (∀ k, (t.reg x).getLsbD k = ((s.reg x).getLsbD k || (s.reg y).getLsbD k)) ∧ t.pc = s.pc + 2 ∧
      Frame (fun p => p = .reg x ∨ p = .pc) s t) ∧
    (∃ t, exec (.andVxVy x y) s = .next t ∧
      (∀ k, (t.reg x).getLsbD k = ((s.reg x).getLsbD k && (s.reg y).getLsbD k)) ∧ t.pc = s.pc + 2 ∧
      Frame (fun p => p = .reg x ∨ p = .pc) s t) ∧
    (∃ t, exec (.xorVxVy x y) s = .next t ∧
      (∀ k, (t.reg x).getLsbD k = ((s.reg x).getLsbD k ^^ (s.reg y).getLsbD k)) ∧ t.pc = s.pc + 2 ∧
      Frame (fun p => p = .reg x ∨ p = .pc) s t)

/-- R128: ADD Vx,Vy. VF is the carry, also where x or y is F; the result is lost where x = F (R121). -/
def Obligations.AddWithCarry : Prop :=
  ∀ (s : State) (x y : Reg),
    ∃ t, exec (.addVxVy x y) s = .next t ∧
      (x ≠ flagReg → (t.reg x).toNat = ((s.reg x).toNat + (s.reg y).toNat) % 256) ∧
      (t.reg flagReg).toNat = (if (s.reg x).toNat + (s.reg y).toNat > 255 then 1 else 0) ∧ t.pc = s.pc + 2 ∧
      Frame (fun p => p = .reg x ∨ p = .reg flagReg ∨ p = .pc) s t

/-- R129, R131: SUB and SUBN. VF is 1 when no borrow occurs, also where x or y is F (R121). -/
def Obligations.SubtractWithBorrowAvoided : Prop :=
  ∀ (s : State) (x y : Reg),
    (∃ t, exec (.subVxVy x y) s = .next t ∧
      (x ≠ flagReg → ((t.reg x).toNat : Int) = ((s.reg x).toNat - (s.reg y).toNat : Int) % 256) ∧
      (t.reg flagReg).toNat = (if (s.reg x).toNat ≥ (s.reg y).toNat then 1 else 0) ∧ t.pc = s.pc + 2 ∧
      Frame (fun p => p = .reg x ∨ p = .reg flagReg ∨ p = .pc) s t) ∧
    (∃ t, exec (.subnVxVy x y) s = .next t ∧
      (x ≠ flagReg → ((t.reg x).toNat : Int) = ((s.reg y).toNat - (s.reg x).toNat : Int) % 256) ∧
      (t.reg flagReg).toNat = (if (s.reg y).toNat ≥ (s.reg x).toNat then 1 else 0) ∧ t.pc = s.pc + 2 ∧
      Frame (fun p => p = .reg x ∨ p = .reg flagReg ∨ p = .pc) s t)

/-- R130, R132: SHR and SHL of the source the parameter SHIFT_SOURCE names; VF is the bit shifted out, also where x or
y is F (R121). -/
def Obligations.ShiftsByOne : Prop :=
  ∀ (s : State) (x y : Reg) (src : Byte), src = (if s.config.shiftSource = .vx then s.reg x else s.reg y) →
    (∃ t, exec (.shrVxVy x y) s = .next t ∧ (x ≠ flagReg → (t.reg x).toNat = src.toNat / 2) ∧
      (t.reg flagReg).toNat = src.toNat % 2 ∧ t.pc = s.pc + 2 ∧
      Frame (fun p => p = .reg x ∨ p = .reg flagReg ∨ p = .pc) s t) ∧
    (∃ t, exec (.shlVxVy x y) s = .next t ∧ (x ≠ flagReg → (t.reg x).toNat = src.toNat * 2 % 256) ∧
      (t.reg flagReg).toNat = src.toNat / 128 ∧ t.pc = s.pc + 2 ∧
      Frame (fun p => p = .reg x ∨ p = .reg flagReg ∨ p = .pc) s t)

/-- R133: RND draws one byte (a free value, log entry 2) and masks it; a bit is 0 wherever the mask has a 0. -/
def Obligations.RandomUnderMask : Prop :=
  ∀ (s : State) (x : Reg) (kk : Byte),
    ∃ t, exec (.rndVxKk x kk) s = .next t ∧
      (∀ k, (t.reg x).getLsbD k = ((Config.randomDraw s.draws).getLsbD k && kk.getLsbD k)) ∧
      t.draws = s.draws + 1 ∧ t.pc = s.pc + 2 ∧ Frame (fun p => p = .reg x ∨ p = .pc ∨ p = .draws) s t

/-- R21: no instruction changes a register but its named destination and, for the six flag writers, VF; so no other
instruction writes VF except when VF is its named destination. -/
def Obligations.OnlyDestinationsChange : Prop :=
  ∀ (i : Instr) (s t : State) (r : Reg), exec i s = .next t → t.reg r ≠ s.reg r →
    namesDestination i r ∨ (writesFlag i = true ∧ r = flagReg)

/-! ### Address register, loads and stores (42_index_memory.md) -/

/-- R150, R151, R152: LD I, ADD I,Vx (modulo 2^16, no flag) and LD F,Vx (times 5, no nibble mask). -/
def Obligations.AddressRegisterArithmetic : Prop :=
  ∀ (s : State) (x : Reg) (nnn : Addr),
    (∃ t, exec (.ldINnn nnn) s = .next t ∧ t.I.toNat = nnn.toNat ∧ t.pc = s.pc + 2 ∧
      Frame (fun p => p = .addressReg ∨ p = .pc) s t) ∧
    (∃ t, exec (.addIVx x) s = .next t ∧ t.I.toNat = (s.I.toNat + (s.reg x).toNat) % 65536 ∧ t.pc = s.pc + 2 ∧
      Frame (fun p => p = .addressReg ∨ p = .pc) s t) ∧
    (∃ t, exec (.ldFVx x) s = .next t ∧ t.I.toNat = (s.reg x).toNat * 5 ∧ t.pc = s.pc + 2 ∧
      Frame (fun p => p = .addressReg ∨ p = .pc) s t)

/-- R153: LD B,Vx stores the three decimal digits at (I + r) & 0x0FFF, hundreds first, but for bytes the policy DROP
holds back (R55); under FAULT with a font target it halts with FONT_WRITE and writes nothing (R224), recording pc, the
lowest font target and the word (R222), which is the instruction's encoding (log entry 10). -/
def Obligations.DecimalDigitsStored : Prop :=
  ∀ (s : State) (x : Reg),
    (s.storeAllowed 3 →
      ∃ t, exec (.ldBVx x) s = .next t ∧ t.pc = s.pc + 2 ∧
        (∀ a r d, (r, d) ∈ [(0, (s.reg x).toNat / 100), (1, (s.reg x).toNat / 10 % 10), (2, (s.reg x).toNat % 10)] →
          isTargetAt s.I r a → ¬ s.heldBack a → (t.mem.read a).toNat = d) ∧
        Frame (fun p => p = .pc ∨ ∃ a, isTarget s.I 3 a ∧ ¬ s.heldBack a ∧ p = .byte a) s t) ∧
    (¬ s.storeAllowed 3 →
      ∃ t w, exec (.ldBVx x) s = .next t ∧ w.toNat = 0xF033 + 256 * x.val ∧ HaltsOnFontWrite s t 3 w)

/-- R154: LD [I],Vx stores V0 to Vx at (I + r) & 0x0FFF, but for bytes the policy DROP holds back (R55); under FAULT with
a font target it halts with FONT_WRITE and writes nothing (R224), recording pc, the lowest font target and the word
(R222), which is the instruction's encoding (log entry 10). -/
def Obligations.RegisterDumpStored : Prop :=
  ∀ (s : State) (x : Reg),
    (s.storeAllowed (x.val + 1) →
      ∃ t, exec (.ldMemIVx x) s = .next t ∧ t.pc = s.pc + 2 ∧
        (∀ (a : Addr) (r : Reg), r ≤ x → isTargetAt s.I r.val a → ¬ s.heldBack a → t.mem.read a = s.reg r) ∧
        Frame (fun p => p = .pc ∨ ∃ a, isTarget s.I (x.val + 1) a ∧ ¬ s.heldBack a ∧ p = .byte a) s t) ∧
    (¬ s.storeAllowed (x.val + 1) →
      ∃ t w, exec (.ldMemIVx x) s = .next t ∧ w.toNat = 0xF055 + 256 * x.val ∧ HaltsOnFontWrite s t (x.val + 1) w)

/-- R155: LD Vx,[I] loads V0 to Vx from (I + r) & 0x0FFF; the registers above x, I and memory are unchanged. -/
def Obligations.RegistersLoaded : Prop :=
  ∀ (s : State) (x : Reg),
    ∃ t, exec (.ldVxMemI x) s = .next t ∧ t.pc = s.pc + 2 ∧
      (∀ (a : Addr) (r : Reg), r ≤ x → isTargetAt s.I r.val a → t.reg r = s.mem.read a) ∧
      Frame (fun p => p = .pc ∨ ∃ r, r ≤ x ∧ p = .reg r) s t

/-- R156 (the spec's own derivation): a dump and then a load with the same I, x and memory gives V0 to Vx back, where
no target is in the font region or the policy is WRITE; under DROP a dropped byte reads back as the font byte; under
FAULT the dump halts. -/
def Obligations.DumpThenLoadRoundTrip : Prop :=
  ∀ (s : State) (x : Reg),
    (s.storeAllowed (x.val + 1) →
      ∃ t, exec (.ldMemIVx x) s = .next t ∧ t.status = s.status ∧
        ∀ u : State, u.I = t.I → (∀ a, isTarget s.I (x.val + 1) a → u.mem.read a = t.mem.read a) →
          ∃ v, exec (.ldVxMemI x) u = .next v ∧
            ∀ (a : Addr) (r : Reg), r ≤ x → isTargetAt s.I r.val a →
              (¬ s.heldBack a → v.reg r = s.reg r) ∧ (s.heldBack a → v.reg r = s.mem.read a)) ∧
    (¬ s.storeAllowed (x.val + 1) →
      ∃ t h, exec (.ldMemIVx x) s = .next t ∧ t.status = .halted h ∧ h.code = 5)

/-- R24, R54: only LD I, ADD I,Vx and LD F,Vx write I. -/
def Obligations.OnlyIndexInstructionsWriteI : Prop :=
  ∀ (i : Instr) (s t : State), exec i s = .next t → t.I ≠ s.I →
    (∃ nnn, i = .ldINnn nnn) ∨ (∃ x, i = .addIVx x) ∨ (∃ x, i = .ldFVx x)

/-- R59, R61: memory is written by LD B,Vx and LD [I],Vx alone, at their own targets; the environment never writes it.
-/
def Obligations.OnlyStoresWriteMemory : Prop :=
  (∀ (i : Instr) (s t : State) (a : Addr), exec i s = .next t → t.mem.read a ≠ s.mem.read a →
    (∃ x, i = .ldBVx x ∧ isTarget s.I 3 a) ∨ (∃ x : Reg, i = .ldMemIVx x ∧ isTarget s.I (x.val + 1) a)) ∧
  (∀ (tr : Transition) (s t : State), tr ≠ .step → takeTransition tr s = .next t → t.mem = s.mem)

/-! ### Display (43_display.md) -/

/-- R170: CLS unsets every pixel; VF is unchanged. -/
def Obligations.ClearScreen : Prop :=
  ∀ s : State, ∃ t, exec .cls s = .next t ∧ (∀ px py, t.disp.pixel px py = false) ∧ t.pc = s.pc + 2 ∧
    Frame (fun p => p = .pc ∨ ∃ px py, p = .pixel px py) s t

/-- R172: DRW flips exactly the pixels its sprite covers, both axes wrapping, and VF says whether one of them was set
before the draw, over the whole sprite; the coordinates are read before VF is written. -/
def Obligations.DrawSprite : Prop :=
  ∀ (s : State) (x y : Reg) (n : Nibble),
    ∃ t, exec (.drwVxVyN x y n) s = .next t ∧
      (∀ px py, spriteCovers s.mem s.I (s.reg x) (s.reg y) n.toNat px py →
        t.disp.pixel px py = !(s.disp.pixel px py)) ∧
      ((∃ px py, spriteCovers s.mem s.I (s.reg x) (s.reg y) n.toNat px py ∧ s.disp.pixel px py = true) →
        t.reg flagReg = 1) ∧
      ((∀ px py, spriteCovers s.mem s.I (s.reg x) (s.reg y) n.toNat px py → s.disp.pixel px py = false) →
        t.reg flagReg = 0) ∧
      t.pc = s.pc + 2 ∧
      Frame (fun p => p = .pc ∨ p = .reg flagReg ∨
        ∃ px py, spriteCovers s.mem s.I (s.reg x) (s.reg y) n.toNat px py ∧ p = .pixel px py) s t

/-- R173 (the spec's own derivation): the collision law in the sprite's own bits, and the draw of height 0. -/
def Obligations.CollisionLaw : Prop :=
  ∀ (s : State) (x y : Reg) (n : Nibble),
    ∃ t, exec (.drwVxVyN x y n) s = .next t ∧
      (1 ≤ n.toNat →
        (t.reg flagReg = 1 ∧
          ∃ r c, r < n.toNat ∧ c < 8 ∧ (s.mem.read (BitVec.ofNat 12 (s.I.toNat + r))).getLsbD (7 - c) = true ∧
            s.disp.pixel (Fin.ofNat 64 ((s.reg x).toNat + c)) (Fin.ofNat 32 ((s.reg y).toNat + r)) = true) ∨
        (t.reg flagReg = 0 ∧
          ∀ r c, r < n.toNat → c < 8 → (s.mem.read (BitVec.ofNat 12 (s.I.toNat + r))).getLsbD (7 - c) = true →
            s.disp.pixel (Fin.ofNat 64 ((s.reg x).toNat + c)) (Fin.ofNat 32 ((s.reg y).toNat + r)) = false)) ∧
      (n = 0 → t.reg flagReg = 0 ∧ t.disp = s.disp)

/-- R172: drawing the same sprite twice at the same place restores the display, and the second draw collides exactly
when the sprite covers a pixel that was unset before the first. (R172's corner-case sentence says "if the sprite has
any set bit"; by its own pseudocode that needs a covered pixel that was unset: log entry 12.) -/
def Obligations.DrawTwiceRestoresDisplay : Prop :=
  ∀ (s : State) (x y : Reg) (n : Nibble), x ≠ flagReg → y ≠ flagReg →
    ∃ t u, exec (.drwVxVyN x y n) s = .next t ∧ exec (.drwVxVyN x y n) t = .next u ∧ u.disp = s.disp ∧
      ((∃ px py, spriteCovers s.mem s.I (s.reg x) (s.reg y) n.toNat px py ∧ s.disp.pixel px py = false) →
        u.reg flagReg = 1) ∧
      ((∀ px py, spriteCovers s.mem s.I (s.reg x) (s.reg y) n.toNat px py → s.disp.pixel px py = true) →
        u.reg flagReg = 0)

/-- R174: only CLS and DRW write the display, and the environment never does. -/
def Obligations.OnlyClsAndDrwWriteDisplay : Prop :=
  (∀ (i : Instr) (s t : State), exec i s = .next t → t.disp ≠ s.disp → i = .cls ∨ ∃ x y n, i = .drwVxVyN x y n) ∧
  (∀ (tr : Transition) (s t : State), tr ≠ .step → takeTransition tr s = .next t → t.disp = s.disp)

/-! ### Keypad and timers (44_keys_timers.md) -/

/-- R190, R191: SKP skips when the key in Vx is held, SKNP when it is not; an index of 16 or more is no held key. -/
def Obligations.KeySkips : Prop :=
  ∀ (s : State) (x : Reg),
    (∃ t, exec (.skpVx x) s = .next t ∧
      (∀ k : Key, (s.reg x).toNat = k.val → t.pc = if s.keys.getLsbD k.val then s.pc + 4 else s.pc + 2) ∧
      (16 ≤ (s.reg x).toNat → t.pc = s.pc + 2) ∧ Frame (fun p => p = .pc) s t) ∧
    (∃ t, exec (.sknpVx x) s = .next t ∧
      (∀ k : Key, (s.reg x).toNat = k.val → t.pc = if s.keys.getLsbD k.val then s.pc + 2 else s.pc + 4) ∧
      (16 ≤ (s.reg x).toNat → t.pc = s.pc + 4) ∧ Frame (fun p => p = .pc) s t)

/-- R192, R194, R195: the three timer moves; the write to ST emits no cue. -/
def Obligations.TimerMoves : Prop :=
  ∀ (s : State) (x : Reg),
    (∃ t, exec (.ldVxDt x) s = .next t ∧ t.reg x = s.DT ∧ t.pc = s.pc + 2 ∧
      Frame (fun p => p = .reg x ∨ p = .pc) s t) ∧
    (∃ t, exec (.ldDtVx x) s = .next t ∧ t.DT = s.reg x ∧ t.pc = s.pc + 2 ∧
      Frame (fun p => p = .delayTimer ∨ p = .pc) s t) ∧
    (∃ t, exec (.ldStVx x) s = .next t ∧ t.ST = s.reg x ∧ t.pc = s.pc + 2 ∧
      Frame (fun p => p = .soundTimer ∨ p = .pc) s t)

/-- R193: LD Vx,K starts the wait and holds pc; whatever keys are held, and while the wait holds a Step changes
nothing (log entry 8). -/
def Obligations.KeyWaitStarts : Prop :=
  ∀ (s : State) (x : Reg),
    ∃ t, exec (.ldVxK x) s = .next t ∧ t.wait = .awaiting x ∧ Frame (fun p => p = .wait) s t ∧
      takeTransition .step t = .next t

/-- R196: a key press, the next transition of the schedule (log entry 1), completes a waiting LD Vx,K; delivered with
no wait it has no effect. -/
def Obligations.KeyPressCompletesWait : Prop :=
  ∀ (s : State) (k : Key) (ts : List Transition), s.status = .running → s.schedule = .keyPress k :: ts →
    (∀ x, s.wait = .awaiting x →
      ∃ t, step s = .next t ∧ (t.reg x).toNat = k.val ∧ t.wait = .none ∧ t.pc = s.pc + 2 ∧ t.schedule = ts ∧
        Frame (fun p => p = .reg x ∨ p = .wait ∨ p = .pc ∨ p = .schedule) s t) ∧
    (s.wait = .none →
      ∃ t, step s = .next t ∧ t.schedule = ts ∧ Frame (fun p => p = .schedule) s t)

/-! ### Halts (60_exceptions.md) -/

/-- R224: a halt an instruction raises is precise: nothing but the status changes. -/
def Obligations.HaltsArePrecise : Prop :=
  ∀ (i : Instr) (s t : State), exec i s = .next t → t.status ≠ s.status →
    (∃ r, t.status = .halted r) ∧ Frame (fun p => p = .status) s t

/-- R223: which instruction can raise which halt. -/
def Obligations.HaltReasonsPerInstruction : Prop :=
  ∀ (i : Instr) (s t : State), exec i s = .next t → t.status ≠ s.status →
    (∃ nnn w, i = .callNnn nnn ∧ t.status = .halted (.stackOverflow s.pc w)) ∨
    (∃ w, i = .ret ∧ t.status = .halted (.stackUnderflow s.pc w)) ∨
    (∃ x w a, (i = .ldBVx x ∨ i = .ldMemIVx x) ∧ t.status = .halted (.fontWrite s.pc w a))

/-- R224, R225: after a halt no transition is enabled, whatever is scheduled: the step answers the fault that names the
halt (log entry 9). And a step answers a next state exactly while the core runs: it never refuses, and faults only by a
halt; a Step that comes next while a key is awaited answers the same state (log entry 8). -/
def Obligations.OnlyAHaltStopsTheMachine : Prop :=
  ∀ s : State,
    (∀ r, s.status = .halted r → step s = .fault (.halted r)) ∧ (s.status = .running → ∃ t, step s = .next t)

/-- R222: the codes of the halt reasons are 1 to 6, and R229's ends: normal exactly with code 1, a fault with 2 to 6.
-/
def Obligations.HaltCodes : Prop :=
  (∀ pc w a, (HaltReason.stopped pc).code = 1 ∧ (HaltReason.fetchOutOfBounds pc).code = 2 ∧
    (HaltReason.stackOverflow pc w).code = 3 ∧ (HaltReason.stackUnderflow pc w).code = 4 ∧
    (HaltReason.fontWrite pc w a).code = 5 ∧ HaltReason.loadFailed.code = 6) ∧
  (∀ s : State, (s.endedNormally = true ↔ s.status.code = 1) ∧ (s.status = .running ↔ s.status.code = 0) ∧
    (s.faultHalted = true ↔ 2 ≤ s.status.code ∧ s.status.code ≤ 6))

/-- R28 (the spec's own derivation): no instruction changes sp or a stack slot but CALL and RET, and RET leaves every
slot as it is. -/
def Obligations.OnlyCallAndRetTouchTheStack : Prop :=
  (∀ (i : Instr) (s t : State), exec i s = .next t → t.sp ≠ s.sp ∨ t.stack ≠ s.stack →
    i = .ret ∨ ∃ nnn, i = .callNnn nnn) ∧
  (∀ s t : State, exec .ret s = .next t → t.stack = s.stack)

/-- R76: in a running core, every instruction but jumps, CALL, RET, the skips and LD Vx,K advances pc by exactly 2
unless it halts, and an instruction that halts leaves pc unchanged. -/
def Obligations.GenericAdvance : Prop :=
  ∀ (i : Instr) (s t : State), s.status = .running → exec i s = .next t →
    (setsPcItself i = false → t.status = .running → t.pc = s.pc + 2) ∧ (t.status ≠ .running → t.pc = s.pc)

/-! ### Timers and the environment (60_exceptions.md) -/

/-- R230, R231: a tick, the next transition of the schedule (log entry 1), counts both timers down to zero and no
further, in a key wait too, and emits the cue exactly when ST goes from 1 to 0. -/
def Obligations.TickCountsDown : Prop :=
  ∀ (s : State) (ts : List Transition), s.status = .running → s.schedule = .tick :: ts →
    ∃ t, step s = .next t ∧ t.DT.toNat = s.DT.toNat - 1 ∧ t.ST.toNat = s.ST.toNat - 1 ∧
      t.events = (if s.ST = 1 then s.events ++ [.soundCue] else s.events) ∧ t.schedule = ts ∧
      Frame (fun p => p = .delayTimer ∨ p = .soundTimer ∨ p = .events ∨ p = .schedule) s t

/-- R231, R227: the only events: the cue, by a tick that takes ST from 1 to 0, and the report of an unmapped word at pc
(the event log and the schedule are the model's own, log entries 4 and 1). -/
def Obligations.EventsOnlyFromTickAndUnknown : Prop :=
  ∀ s t : State, step s = .next t →
    t.events = s.events ∨
    (t.events = s.events ++ [.soundCue] ∧ s.ST = 1 ∧ t.ST = 0 ∧ ∃ ts, s.schedule = .tick :: ts) ∨
    (∃ w, t.events = s.events ++ [.unknownOpcode s.pc w] ∧ fetch s = some w ∧ wordWellFormed w = false)

/-- R246: SetKeys, the next transition of the schedule (log entry 1), replaces all 16 key states at once, bit k of its
value for key k (log entry 14), and changes nothing else, in a key wait too. -/
def Obligations.SetKeysReplacesAllKeys : Prop :=
  ∀ (s : State) (k16 : BitVec 16) (ts : List Transition), s.status = .running → s.schedule = .setKeys k16 :: ts →
    ∃ t, step s = .next t ∧ (∀ k : Key, t.keys.getLsbD k.val = k16.getLsbD k.val) ∧ t.schedule = ts ∧
      Frame (fun p => p = .schedule ∨ ∃ k, p = .key k) s t

/-- R228: Stop, the next transition of the schedule (log entry 1), halts the running core, in a key wait too, and every
other state element keeps its value, `wait` included: the halt itself is what ends the wait (log entry 16). -/
def Obligations.StopHaltsTheCore : Prop :=
  ∀ (s : State) (ts : List Transition), s.status = .running → s.schedule = .stop :: ts →
    ∃ t, step s = .next t ∧ t.status = .halted (.stopped s.pc) ∧ t.schedule = ts ∧
      Frame (fun p => p = .status ∨ p = .schedule) s t

/-- R253: of the transitions that leave the core running, a key press alone ends a key wait; until then registers, I, pc,
stack, display and memory keep their values whatever transition is taken. Stop ends the wait by its halt, with `wait`
kept in the halted state (log entry 16); a Step that comes next changes nothing (log entry 8); the schedule is the model's
own (log entry 1). -/
def Obligations.KeyWaitEndsOnlyByKeyPress : Prop :=
  ∀ (s t : State) (x : Reg), s.wait = .awaiting x → step s = .next t →
    (∃ k ts, s.schedule = .keyPress k :: ts ∧ t.wait = .none) ∨
    Frame (fun p => p = .delayTimer ∨ p = .soundTimer ∨ p = .events ∨ p = .schedule ∨ p = .status ∨ ∃ k, p = .key k) s t

/-- R241, R243: an outer iteration of the reference scheduler only takes transitions of the core: its effect on the core
is that of the transitions it records, taken one at a time in that order (environment; log entry 13). -/
def Obligations.ReferenceSchedulerTakesTransitions : Prop :=
  ∀ (instrRate timerRate : Nat) (h : HostInput) (a : Accumulators) (r : Run),
    ∃ ts : List Transition, (schedulerIteration instrRate timerRate h a r).2.taken = r.taken ++ ts ∧
      (schedulerIteration instrRate timerRate h a r).2.core = ts.foldl State.take r.core

/-- R241: each accumulator keeps its remainder: after an iteration that is not stopped, at most one period is left in
it, and what was taken off is a whole number of periods. -/
def Obligations.ReferenceSchedulerKeepsRemainders : Prop :=
  ∀ (instrRate timerRate : Nat) (h : HostInput) (a : Accumulators) (r : Run),
    0 < instrRate → 0 < timerRate → h.stopFlag = false →
    ∃ nI nT : Nat,
      (schedulerIteration instrRate timerRate h a r).1.accI + nI * timerRate = a.accI + h.elapsed ∧
      (schedulerIteration instrRate timerRate h a r).1.accI ≤ timerRate ∧
      (schedulerIteration instrRate timerRate h a r).1.accT + nT * instrRate = a.accT + h.elapsed ∧
      (schedulerIteration instrRate timerRate h a r).1.accT ≤ instrRate

/-- R241, R242: the reference scheduler from its start (both accumulators zero), host input by host input (environment;
log entry 13). The transitions it takes are the run's record, and their effect, in order, is the run's on the core. While
it is not stopped the record holds one SetKeys for each instruction period and one Tick for each timer period taken off
the elapsed time, of which at most one period of each is left; the first stop flag takes Stop and ends the loop, whatever
input would follow. -/
def Obligations.ReferenceRunKeepsPaceUntilStop : Prop :=
  ∀ (instrRate timerRate : Nat) (hs : List HostInput) (s : State) (a : Accumulators) (r : Run),
    0 < instrRate → 0 < timerRate → (∀ h ∈ hs, h.stopFlag = false) → schedulerRun instrRate timerRate hs s = (a, r) →
    r.core = r.taken.foldl State.take s ∧
    a.accI + r.taken.countP Transition.isSetKeys * timerRate = (hs.map HostInput.elapsed).sum ∧ a.accI ≤ timerRate ∧
    a.accT + r.taken.count .tick * instrRate = (hs.map HostInput.elapsed).sum ∧ a.accT ≤ instrRate ∧
    ∀ (h : HostInput) (rest : List HostInput), h.stopFlag = true →
      schedulerRun instrRate timerRate (hs ++ h :: rest) s = (a, r.take .stop)
end

