-- ==== Sys2Proof/Laws/Decode.lean ====
section
/-! SUPPORT. The fields of an encoded word (30_encoding.md R71, R73, R82), and the word of two bytes. -/

namespace Sys2Proof

/-- A field below the split of an appended word is that field of its low part. -/
theorem extractLsb'_append_low {m n start len : Nat} (a : BitVec m) (b : BitVec n) (h : start + len ≤ n) :
    (a ++ b).extractLsb' start len = b.extractLsb' start len := by
  apply BitVec.eq_of_getLsbD_eq
  intro i hi
  simp [hi, BitVec.getLsbD_append, show start + i < n by omega]

@[simp] theorem fieldOp_encNnn (op : Nibble) (nnn : Addr) : fieldOp (encNnn op nnn) = op :=
  BitVec.extractLsb'_append_eq_left

@[simp] theorem fieldNnn_encNnn (op : Nibble) (nnn : Addr) : fieldNnn (encNnn op nnn) = nnn :=
  BitVec.extractLsb'_append_eq_right

@[simp] theorem fieldOp_encXkk (op : Nibble) (x : Reg) (kk : Byte) : fieldOp (encXkk op x kk) = op :=
  BitVec.extractLsb'_append_eq_left

@[simp] theorem fieldX_encXkk (op : Nibble) (x : Reg) (kk : Byte) : fieldX (encXkk op x kk) = x :=
  congrArg BitVec.toFin (a₂ := (BitVec.ofFin x : Nibble))
    ((extractLsb'_append_low op _ (by decide)).trans BitVec.extractLsb'_append_eq_left)

@[simp] theorem fieldKk_encXkk (op : Nibble) (x : Reg) (kk : Byte) : fieldKk (encXkk op x kk) = kk :=
  (extractLsb'_append_low op _ (by decide)).trans BitVec.extractLsb'_append_eq_right

@[simp] theorem fieldOp_encXyn (op : Nibble) (x y : Reg) (n : Nibble) : fieldOp (encXyn op x y n) = op :=
  BitVec.extractLsb'_append_eq_left

@[simp] theorem fieldX_encXyn (op : Nibble) (x y : Reg) (n : Nibble) : fieldX (encXyn op x y n) = x :=
  congrArg BitVec.toFin (a₂ := (BitVec.ofFin x : Nibble))
    ((extractLsb'_append_low op _ (by decide)).trans BitVec.extractLsb'_append_eq_left)

@[simp] theorem fieldY_encXyn (op : Nibble) (x y : Reg) (n : Nibble) : fieldY (encXyn op x y n) = y :=
  congrArg BitVec.toFin (a₂ := (BitVec.ofFin y : Nibble))
    ((extractLsb'_append_low op _ (by decide)).trans
      ((extractLsb'_append_low (BitVec.ofFin x : Nibble) _ (by decide)).trans BitVec.extractLsb'_append_eq_left))

@[simp] theorem fieldN_encXyn (op : Nibble) (x y : Reg) (n : Nibble) : fieldN (encXyn op x y n) = n :=
  (extractLsb'_append_low op _ (by decide)).trans
    ((extractLsb'_append_low (BitVec.ofFin x : Nibble) _ (by decide)).trans BitVec.extractLsb'_append_eq_right)

/-! ### A word is its fields (R71, R73) -/

@[simp] theorem encNnn_fields (w : Word) : encNnn (fieldOp w) (fieldNnn w) = w := by
  apply BitVec.eq_of_getLsbD_eq
  intro i hi
  simp only [encNnn, fieldOp, fieldNnn, BitVec.getLsbD_append, BitVec.getLsbD_extractLsb']
  interval_cases i <;> simp

@[simp] theorem encXkk_fields (w : Word) : encXkk (fieldOp w) (fieldX w) (fieldKk w) = w := by
  apply BitVec.eq_of_getLsbD_eq
  intro i hi
  simp only [encXkk, fieldOp, fieldX, fieldKk, BitVec.getLsbD_append, BitVec.getLsbD_extractLsb', BitVec.ofFin_toFin]
  interval_cases i <;> simp

@[simp] theorem encXyn_fields (w : Word) : encXyn (fieldOp w) (fieldX w) (fieldY w) (fieldN w) = w := by
  apply BitVec.eq_of_getLsbD_eq
  intro i hi
  simp only [encXyn, fieldOp, fieldX, fieldY, fieldN, BitVec.getLsbD_append, BitVec.getLsbD_extractLsb', BitVec.ofFin_toFin]
  interval_cases i <;> simp

/-! ### The number of a word -/

theorem append_toNat {m n : Nat} (a : BitVec m) (b : BitVec n) : (a ++ b).toNat = a.toNat * 2 ^ n + b.toNat := by
  rw [BitVec.toNat_append, ← Nat.shiftLeft_add_eq_or_of_lt b.isLt, Nat.shiftLeft_eq]

theorem encNnn_toNat (op : Nibble) (nnn : Addr) : (encNnn op nnn).toNat = op.toNat * 4096 + nnn.toNat :=
  append_toNat op nnn

theorem encXkk_toNat (op : Nibble) (x : Reg) (kk : Byte) :
    (encXkk op x kk).toNat = op.toNat * 4096 + x.val * 256 + kk.toNat := by
  have h : (encXkk op x kk).toNat = op.toNat * 2 ^ 12 + (x.val * 2 ^ 8 + kk.toNat) :=
    (append_toNat op _).trans (congrArg _ (append_toNat (BitVec.ofFin x : Nibble) kk))
  rw [h, Nat.add_assoc]; rfl

/-- The word of two bytes as a number: the first byte is the high one (R52). -/
theorem wordOfBytes_toNat (hi lo : Byte) : (wordOfBytes hi lo).toNat = hi.toNat * 256 + lo.toNat := append_toNat hi lo

/-! ### A masked word keeps its fixed fields alone (R74) -/

theorem encNnn_and_F000 (op : Nibble) (nnn : Addr) : encNnn op nnn &&& 0xF000#16 = encNnn op 0 := by
  apply BitVec.eq_of_getLsbD_eq
  intro i hi
  simp only [encNnn, BitVec.getLsbD_and, BitVec.getLsbD_append]
  interval_cases i <;> simp

theorem encXkk_and_F000 (op : Nibble) (x : Reg) (kk : Byte) : encXkk op x kk &&& 0xF000#16 = encXkk op 0 0 := by
  apply BitVec.eq_of_getLsbD_eq
  intro i hi
  simp only [encXkk, BitVec.getLsbD_and, BitVec.getLsbD_append]
  interval_cases i <;> simp

theorem encXkk_and_F0FF (op : Nibble) (x : Reg) (kk : Byte) : encXkk op x kk &&& 0xF0FF#16 = encXkk op 0 kk := by
  apply BitVec.eq_of_getLsbD_eq
  intro i hi
  simp only [encXkk, BitVec.getLsbD_and, BitVec.getLsbD_append]
  interval_cases i <;> simp

theorem encXyn_and_F000 (op : Nibble) (x y : Reg) (n : Nibble) : encXyn op x y n &&& 0xF000#16 = encXyn op 0 0 0 := by
  apply BitVec.eq_of_getLsbD_eq
  intro i hi
  simp only [encXyn, BitVec.getLsbD_and, BitVec.getLsbD_append]
  interval_cases i <;> simp

theorem encXyn_and_F00F (op : Nibble) (x y : Reg) (n : Nibble) : encXyn op x y n &&& 0xF00F#16 = encXyn op 0 0 n := by
  apply BitVec.eq_of_getLsbD_eq
  intro i hi
  simp only [encXyn, BitVec.getLsbD_and, BitVec.getLsbD_append]
  interval_cases i <;> simp

/-! ### Bytes (R52, R60) -/

/-- The bytes of a word in memory order give the word back (R52, R60). -/
@[simp] theorem wordOfBytes_highLow (w : Word) : wordOfBytes (highByte w) (lowByte w) = w := by
  apply BitVec.eq_of_getLsbD_eq
  intro i hi
  simp only [wordOfBytes, highByte, lowByte, BitVec.getLsbD_append, BitVec.getLsbD_extractLsb']
  by_cases h : i < 8
  · simp [h]
  · simp [h, show i - 8 < 8 by omega, show 8 + (i - 8) = i by omega]

@[simp] theorem highByte_wordOfBytes (hi lo : Byte) : highByte (wordOfBytes hi lo) = hi :=
  BitVec.extractLsb'_append_eq_left

@[simp] theorem lowByte_wordOfBytes (hi lo : Byte) : lowByte (wordOfBytes hi lo) = lo :=
  BitVec.extractLsb'_append_eq_right

end Sys2Proof
end

