-- ==== Sys2Proof/Laws/Display.lean ====
section
/-! SUPPORT. What the display operations do: flipping one pixel, and a whole sprite in closed form (43_display.md R171
to R173). -/

namespace Sys2Proof.Machine

@[simp] theorem Display.clear_pixel (x : Fin 64) (y : Fin 32) : Display.clear.pixel x y = false := by
  simp [Display.clear, Display.pixel, Vector.get_eq_getElem]

/-- Flipping a pixel changes that pixel alone (R172). -/
theorem Display.flip_pixel (d : Display) (x x' : Fin 64) (y y' : Fin 32) :
    (d.flip x y).pixel x' y' = if x' = x ∧ y' = y then !(d.pixel x y) else d.pixel x' y' := by
  simp only [Display.pixel, Display.flip, Vector.get_eq_getElem, Vector.getElem_set]
  by_cases hy : y' = y
  · subst hy
    by_cases hx : x' = x
    · subst hx; simp
    · have : x.val ≠ x'.val := fun e => hx (Fin.ext e.symm)
      simp [hx, this]
  · have : y.val ≠ y'.val := fun e => hy (Fin.ext e.symm)
    simp [hy, this]

/-- Two displays with the same pixels are the same display. -/
theorem Display.ext_pixel {d d' : Display} (h : ∀ x y, d.pixel x y = d'.pixel x y) : d = d' := by
  apply Vector.ext
  intro y hy
  apply Vector.ext
  intro x hx
  exact h ⟨x, hx⟩ ⟨y, hy⟩

/-! ### A sprite as a list of pixels -/

/-- The pixels of a sprite in drawing order: the bit, and the display pixel it lands on. -/
def spritePixels (m : Memory) (base : Word) (cx cy : Byte) (n : Nat) : List (Bool × Fin 64 × Fin 32) :=
  (List.range n).flatMap (fun r =>
    (List.range 8).map (fun c => (spriteBit (m.read (dataAddr base r)) c, spriteColumn cx c, spriteRow cy r)))

theorem plotSprite_eq_foldl (b : Blit) (m : Memory) (base : Word) (cx cy : Byte) (n : Nat) :
    b.plotSprite m base cx cy n = (spritePixels m base cx cy n).foldl (fun a p => a.plot p.1 p.2.1 p.2.2) b := by
  simp only [spritePixels, List.foldl_flatMap, List.foldl_map]
  rfl

/-- No two pixels of one sprite land on the same display pixel (R171). -/
theorem spritePixels_pairwise (m : Memory) (base : Word) (cx cy : Byte) {n : Nat} (hn : n ≤ 32) :
    (spritePixels m base cx cy n).Pairwise (fun p q => p.2 ≠ q.2) := by
  rw [spritePixels, List.pairwise_flatMap]
  constructor
  · intro r _
    rw [List.pairwise_map]
    refine List.Pairwise.imp_of_mem ?_ (List.pairwise_lt_range (n := 8))
    intro a b ha hb hab e
    have := congrArg (fun p => p.1.val) e
    simp only [spriteColumn, Fin.ofNat, List.mem_range] at this ha hb
    omega
  · refine List.Pairwise.imp_of_mem ?_ (List.pairwise_lt_range (n := n))
    intro a b ha hb hab p hp q hq e
    simp only [List.mem_map, List.mem_range] at hp hq ha hb
    obtain ⟨c, -, rfl⟩ := hp
    obtain ⟨c', -, rfl⟩ := hq
    have := congrArg (fun p => p.2.val) e
    simp only [spriteRow, Fin.ofNat] at this
    omega

theorem mem_spritePixels {m : Memory} {base : Word} {cx cy : Byte} {n : Nat} {px : Fin 64} {py : Fin 32} :
    (true, px, py) ∈ spritePixels m base cx cy n ↔ spriteCovers m base cx cy n px py := by
  simp only [spritePixels, List.mem_flatMap, List.mem_map, List.mem_range, Prod.mk.injEq, spriteCovers, spriteBit,
    spriteColumn, spriteRow, Fin.ext_iff, Fin.ofNat]
  constructor
  · rintro ⟨r, hr, c, hc, h1, h2, h3⟩; exact ⟨r, c, hr, hc, h1, h2.symm, h3.symm⟩
  · rintro ⟨r, c, hr, hc, h1, h2, h3⟩; exact ⟨r, hr, c, hc, h1, h2.symm, h3.symm⟩

/-- Drawing pixels at distinct places: a pixel ends flipped exactly when a set bit landed on it. -/
theorem foldl_plot_pixel {L : List (Bool × Fin 64 × Fin 32)} (hL : L.Pairwise (fun p q => p.2 ≠ q.2)) (b : Blit)
    (px : Fin 64) (py : Fin 32) :
    (L.foldl (fun a p => a.plot p.1 p.2.1 p.2.2) b).disp.pixel px py =
      (b.disp.pixel px py ^^ decide ((true, px, py) ∈ L)) := by
  induction L generalizing b with
  | nil => simp
  | cons q L ih =>
    obtain ⟨bit, qx, qy⟩ := q
    rw [List.pairwise_cons] at hL
    rw [List.foldl_cons, ih hL.2]
    cases bit with
    | false => simp [Blit.plot]
    | true =>
      simp only [Blit.plot, if_true, Display.flip_pixel]
      by_cases h : px = qx ∧ py = qy
      · obtain ⟨rfl, rfl⟩ := h
        have : (true, px, py) ∉ L := fun hm => hL.1 _ hm rfl
        simp [this]
      · have : (true, px, py) ≠ (true, qx, qy) := by
          intro e; simp only [Prod.mk.injEq, true_and] at e; exact h e
        simp [h, List.mem_cons]

/-- Drawing pixels at distinct places: the draw collides exactly when a set bit landed on a pixel that was set before
the draw. -/
theorem foldl_plot_collided {L : List (Bool × Fin 64 × Fin 32)} (hL : L.Pairwise (fun p q => p.2 ≠ q.2)) (b : Blit) :
    (L.foldl (fun a p => a.plot p.1 p.2.1 p.2.2) b).collided = true ↔
      b.collided = true ∨ ∃ px py, (true, px, py) ∈ L ∧ b.disp.pixel px py = true := by
  induction L generalizing b with
  | nil => simp
  | cons q L ih =>
    obtain ⟨bit, qx, qy⟩ := q
    rw [List.pairwise_cons] at hL
    rw [List.foldl_cons, ih hL.2]
    cases bit with
    | false => simp [Blit.plot]
    | true =>
      simp only [Blit.plot, if_true, Display.flip_pixel, Bool.or_eq_true, List.mem_cons, Prod.mk.injEq, true_and]
      constructor
      · rintro ((h | h) | ⟨px, py, hm, h⟩)
        · exact .inl h
        · exact .inr ⟨qx, qy, .inl ⟨rfl, rfl⟩, h⟩
        · by_cases e : px = qx ∧ py = qy
          · obtain ⟨rfl, rfl⟩ := e
            exact absurd rfl (hL.1 _ hm)
          · rw [if_neg e] at h
            exact .inr ⟨px, py, .inr hm, h⟩
      · rintro (h | ⟨px, py, ⟨rfl, rfl⟩ | hm, h⟩)
        · exact .inl (.inl h)
        · exact .inl (.inr h)
        · refine .inr ⟨px, py, hm, ?_⟩
          rw [if_neg]
          · exact h
          · rintro ⟨rfl, rfl⟩
            exact absurd rfl (hL.1 _ hm)

/-! ### A sprite in closed form -/

/-- A drawn sprite flips exactly the pixels it covers (R172). -/
theorem Blit.plotSprite_pixel (b : Blit) (m : Memory) (base : Word) (cx cy : Byte) {n : Nat} (hn : n ≤ 32)
    (px : Fin 64) (py : Fin 32) :
    spriteCovers m base cx cy n px py ∧ (b.plotSprite m base cx cy n).disp.pixel px py = !(b.disp.pixel px py) ∨
      ¬ spriteCovers m base cx cy n px py ∧ (b.plotSprite m base cx cy n).disp.pixel px py = b.disp.pixel px py := by
  rw [plotSprite_eq_foldl, foldl_plot_pixel (spritePixels_pairwise m base cx cy hn), ← mem_spritePixels]
  by_cases h : (true, px, py) ∈ spritePixels m base cx cy n <;> simp [h]

/-- A drawn sprite collides exactly when it covers a pixel that was set before the draw (R173). -/
theorem Blit.plotSprite_collided (b : Blit) (m : Memory) (base : Word) (cx cy : Byte) {n : Nat} (hn : n ≤ 32) :
    (b.plotSprite m base cx cy n).collided = true ↔
      b.collided = true ∨ ∃ px py, spriteCovers m base cx cy n px py ∧ b.disp.pixel px py = true := by
  rw [plotSprite_eq_foldl, foldl_plot_collided (spritePixels_pairwise m base cx cy hn)]
  simp only [mem_spritePixels]

end Sys2Proof.Machine
end

