-- ==== Sys2Proof/Laws/Memory.lean ====
section
/-! SUPPORT. What the memory operations do: read after write, and the canonical form kept (20_memory.md R51, R54, R55,
R61). -/

namespace Sys2Proof.Machine

@[simp] theorem Memory.read_nil (a : Addr) : Memory.read [] a = initialByte a := rfl

theorem Memory.read_cons (k : Nat) (b : Byte) (m : Memory) (a : Addr) :
    Memory.read ((k, b) :: m) a = if k = a.toNat then b else m.read a := rfl

theorem Memory.read_put (m : Memory) (a : Addr) (b : Byte) (a' : Addr) :
    (m.put a.toNat b).read a' = if a' = a then b else m.read a' := by
  induction m with
  | nil =>
    by_cases h : a' = a
    · simp [Memory.put, Memory.read_cons, h]
    · have hne : a.toNat ≠ a'.toNat := fun e => h (BitVec.eq_of_toNat_eq e).symm
      simp [Memory.put, Memory.read_cons, h, hne]
  | cons c m ih =>
    obtain ⟨k, x⟩ := c
    by_cases h : a' = a
    · subst h
      unfold Memory.put
      split
      · simp only [Memory.read_cons, ih]; simp; omega
      · split <;> simp [Memory.read_cons]
    · have hne : a.toNat ≠ a'.toNat := fun e => h (BitVec.eq_of_toNat_eq e).symm
      unfold Memory.put
      split
      · simp [Memory.read_cons, ih, h]
      · split
        · rename_i e; subst e; simp [Memory.read_cons, hne]
        · simp [Memory.read_cons, hne]

theorem Memory.read_erase (m : Memory) (a a' : Addr) :
    (m.erase a.toNat).read a' = if a' = a then initialByte a else m.read a' := by
  induction m with
  | nil => simp [Memory.erase]; rintro rfl; rfl
  | cons c m ih =>
    obtain ⟨k, x⟩ := c
    simp only [Memory.erase] at ih ⊢
    by_cases hk : k = a.toNat
    · subst hk
      by_cases h : a' = a
      · simp_all
      · have hne : a.toNat ≠ a'.toNat := fun e => h (BitVec.eq_of_toNat_eq e).symm
        simp_all [Memory.read_cons]
    · by_cases h : a' = a
      · subst h; simp_all [Memory.read_cons]
      · simp_all [Memory.read_cons]

/-- A read after a write (R61): the byte written at its address, every other address as before. Holds of every list of
entries, canonical or not. -/
@[simp] theorem Memory.read_write (m : Memory) (a : Addr) (b : Byte) (a' : Addr) :
    (m.write a b).read a' = if a' = a then b else m.read a' := by
  unfold Memory.write
  split
  · rename_i h; simp [Memory.read_erase, h]
  · exact Memory.read_put m a b a'

/-! ### The canonical form -/

theorem Memory.wfFrom_cons (lo k : Nat) (b : Byte) (m : Memory) :
    Memory.wfFrom lo ((k, b) :: m) = true ↔
      lo ≤ k ∧ k < memSize ∧ b ≠ initialByte (BitVec.ofNat 12 k) ∧ Memory.wfFrom (k + 1) m = true := by
  simp [Memory.wfFrom, and_assoc]

theorem Memory.wfFrom_mono {lo lo' : Nat} (h : lo' ≤ lo) {m : Memory} (hm : Memory.wfFrom lo m = true) :
    Memory.wfFrom lo' m = true := by
  cases m with
  | nil => rfl
  | cons c m =>
    obtain ⟨k, b⟩ := c
    rw [Memory.wfFrom_cons] at hm ⊢
    exact ⟨h.trans hm.1, hm.2⟩

theorem Memory.put_wfFrom {lo : Nat} {m : Memory} {k : Nat} {b : Byte} (hm : Memory.wfFrom lo m = true)
    (hlo : lo ≤ k) (hk : k < memSize) (hb : b ≠ initialByte (BitVec.ofNat 12 k)) :
    Memory.wfFrom lo (m.put k b) = true := by
  induction m generalizing lo with
  | nil => simp [Memory.put, Memory.wfFrom, hlo, hk, hb]
  | cons c m ih =>
    obtain ⟨k', b'⟩ := c
    rw [Memory.wfFrom_cons] at hm
    obtain ⟨h1, h2, h3, h4⟩ := hm
    unfold Memory.put
    split
    · rw [Memory.wfFrom_cons]; exact ⟨h1, h2, h3, ih h4 (by omega)⟩
    · split
      · rename_i e; subst e; rw [Memory.wfFrom_cons]; exact ⟨hlo, hk, hb, h4⟩
      · rw [Memory.wfFrom_cons, Memory.wfFrom_cons]; exact ⟨hlo, hk, hb, by omega, h2, h3, h4⟩

theorem Memory.erase_wfFrom {lo : Nat} {m : Memory} (k : Nat) (hm : Memory.wfFrom lo m = true) :
    Memory.wfFrom lo (m.erase k) = true := by
  induction m generalizing lo with
  | nil => rfl
  | cons c m ih =>
    obtain ⟨k', b'⟩ := c
    rw [Memory.wfFrom_cons] at hm
    obtain ⟨h1, h2, h3, h4⟩ := hm
    have h5 := ih h4
    simp only [Memory.erase, List.filter_cons] at h5 ⊢
    split
    · rw [Memory.wfFrom_cons]; exact ⟨h1, h2, h3, h5⟩
    · exact Memory.wfFrom_mono (by omega) h5

/-- A write keeps the canonical form. -/
theorem Memory.write_wf {m : Memory} (hm : m.wf = true) (a : Addr) (b : Byte) : (m.write a b).wf = true := by
  unfold Memory.write
  split
  · exact Memory.erase_wfFrom _ hm
  · exact Memory.put_wfFrom hm (Nat.zero_le _) a.isLt (by simpa)

/-! ### Stores -/

theorem inFont_eq_true {a : Addr} : inFont a = true ↔ a.toNat < 0x050 := by
  unfold inFont; rw [decide_eq_true_iff]; rfl

theorem inFont_eq_false {a : Addr} : inFont a = false ↔ 0x050 ≤ a.toNat := by
  unfold inFont; rw [decide_eq_false_iff_not, Nat.not_lt]; rfl

theorem Memory.storeByte_wf {m : Memory} (hm : m.wf = true) (p : FontWritePolicy) (a : Addr) (b : Byte) :
    (m.storeByte p a b).wf = true := by
  unfold Memory.storeByte
  split
  · exact hm
  · exact Memory.write_wf hm a b

/-- A store keeps the canonical form. -/
theorem Memory.storeRun_wf {m : Memory} (hm : m.wf = true) (p : FontWritePolicy) (base : Word) (r : Nat)
    (bs : List Byte) : (m.storeRun p base r bs).wf = true := by
  induction bs generalizing m r with
  | nil => exact hm
  | cons b bs ih => exact ih (Memory.storeByte_wf hm p _ b) (r + 1)

/-- What one byte of a store does to a read (R55). -/
theorem Memory.storeByte_read (p : FontWritePolicy) (m : Memory) (a : Addr) (b : Byte) (a' : Addr) :
    (m.storeByte p a b).read a' =
      if a' = a ∧ (inFont a = false ∨ p = .write) then b else m.read a' := by
  unfold Memory.storeByte
  by_cases hf : inFont a = true <;> by_cases hp : p = .write <;> by_cases h : a' = a <;> simp [hf, hp, h]

/-- A store leaves every byte that is none of its targets unchanged. -/
theorem Memory.storeRun_read_other (p : FontWritePolicy) (m : Memory) (base : Word) (r : Nat) (bs : List Byte)
    (a : Addr) (h : ∀ j, j < bs.length → a ≠ dataAddr base (r + j)) : (m.storeRun p base r bs).read a = m.read a := by
  induction bs generalizing m r with
  | nil => rfl
  | cons b bs ih =>
    unfold Memory.storeRun
    rw [ih]
    · rw [Memory.storeByte_read, if_neg]
      rintro ⟨e, -⟩
      exact h 0 (by simp) e
    · intro j hj
      have := h (j + 1) (by simp; omega)
      rwa [show r + (j + 1) = r + 1 + j by omega] at this

/-- Two data accesses less than 4096 apart have different addresses (R54). -/
theorem dataAddr_ne {base : Word} {r r' : Nat} (h : r < r') (hlt : r' - r < 4096) :
    dataAddr base r ≠ dataAddr base r' := by
  intro e
  have := congrArg BitVec.toNat e
  simp only [dataAddr, BitVec.toNat_ofNat] at this
  omega

/-- A store writes each of its bytes at its own target, unless the font policy holds it back (R54, R55). -/
theorem Memory.storeRun_read (p : FontWritePolicy) (m : Memory) (base : Word) (r : Nat) (bs : List Byte)
    (hlen : bs.length ≤ 4096) (j : Nat) (hj : j < bs.length) :
    (m.storeRun p base r bs).read (dataAddr base (r + j)) =
      if inFont (dataAddr base (r + j)) = false ∨ p = .write then bs[j] else m.read (dataAddr base (r + j)) := by
  induction bs generalizing m r j with
  | nil => simp at hj
  | cons b bs ih =>
    unfold Memory.storeRun
    cases j with
    | zero =>
      rw [Memory.storeRun_read_other, Memory.storeByte_read]
      · simp
      · intro i hi
        simp only [List.length_cons] at hlen
        exact dataAddr_ne (by omega) (by omega)
    | succ j =>
      simp only [List.length_cons] at hj hlen
      have := ih (m.storeByte p (dataAddr base r) b) (r + 1) (by omega) j (by omega)
      rw [show r + 1 + j = r + (j + 1) by omega] at this
      rw [this, Memory.storeByte_read, if_neg (c := _ ∧ _)]
      · simp
      · rintro ⟨e, -⟩
        exact dataAddr_ne (base := base) (show r < r + (j + 1) by omega) (by omega) e.symm

/-- Unless the policy is WRITE, a store leaves the font region as it is (R55). -/
theorem Memory.storeRun_read_font {p : FontWritePolicy} (hp : p ≠ .write) (m : Memory) (base : Word) (r : Nat)
    (bs : List Byte) {a : Addr} (ha : inFont a = true) : (m.storeRun p base r bs).read a = m.read a := by
  induction bs generalizing m r with
  | nil => rfl
  | cons b bs ih =>
    unfold Memory.storeRun
    rw [ih, Memory.storeByte_read, if_neg]
    rintro ⟨rfl, h | h⟩
    · simp [ha] at h
    · exact hp h

/-- There is no lowest font target exactly when no target lies in the font region. -/
theorem lowestFontTarget_none {as : List Addr} : lowestFontTarget as = none ↔ ∀ b ∈ as, inFont b = false := by
  induction as with
  | nil => simp [lowestFontTarget]
  | cons c as ih =>
    unfold lowestFontTarget
    split
    · rename_i hc
      constructor
      · intro h; split at h <;> simp at h
      · intro h; simp [hc] at h
    · rename_i hc
      simp [ih, hc]

/-- The lowest font target is one of the targets, lies in the font region, and no font target lies below it. -/
theorem lowestFontTarget_some {as : List Addr} {a : Addr} (h : lowestFontTarget as = some a) :
    a ∈ as ∧ inFont a = true ∧ ∀ b ∈ as, inFont b = true → a.toNat ≤ b.toNat := by
  induction as generalizing a with
  | nil => simp [lowestFontTarget] at h
  | cons c as ih =>
    unfold lowestFontTarget at h
    split at h
    · rename_i hc
      split at h
      · rename_i hn
        simp only [Option.some.injEq] at h
        subst h
        refine ⟨by simp, hc, ?_⟩
        intro b hb hbf
        rcases List.mem_cons.1 hb with rfl | hb
        · exact le_rfl
        · simp [lowestFontTarget_none.1 hn b hb] at hbf
      · rename_i d hd
        obtain ⟨i1, i2, i3⟩ := ih hd
        simp only [Option.some.injEq] at h
        subst h
        split
        · rename_i hle
          refine ⟨by simp, hc, ?_⟩
          intro b hb hbf
          rcases List.mem_cons.1 hb with rfl | hb
          · exact le_rfl
          · exact hle.trans (i3 b hb hbf)
        · rename_i hle
          refine ⟨List.mem_cons_of_mem _ i1, i2, ?_⟩
          intro b hb hbf
          rcases List.mem_cons.1 hb with rfl | hb
          · omega
          · exact i3 b hb hbf
    · rename_i hc
      obtain ⟨i1, i2, i3⟩ := ih h
      refine ⟨List.mem_cons_of_mem _ i1, i2, ?_⟩
      intro b hb hbf
      rcases List.mem_cons.1 hb with rfl | hb
      · exact absurd hbf hc
      · exact i3 b hb hbf

theorem mem_dataAddrs {base : Word} {n : Nat} {a : Addr} : a ∈ dataAddrs base n ↔ ∃ r, r < n ∧ a = dataAddr base r := by
  simp [dataAddrs, eq_comm]

@[simp] theorem decimalDigits_length (b : Byte) : (decimalDigits b).length = 3 := rfl

@[simp] theorem dumpBytes_length (s : State) (x : Reg) : (dumpBytes s x).length = x.val + 1 := by simp [dumpBytes]

/-- Byte r of a register dump is V[r] (R154). -/
theorem dumpBytes_getElem (s : State) {x r : Reg} (h : r.val < (dumpBytes s x).length) : (dumpBytes s x)[r.val] = s.reg r := by
  simp [dumpBytes]

/-- The registers after LD Vx,[I] (R155). -/
theorem State.loadedRegs_get (s : State) (x r : Reg) :
    (s.loadedRegs x).get r = if r ≤ x then s.mem.read (dataAddr s.I r.val) else s.reg r := by
  simp [State.loadedRegs, Vector.get_eq_getElem]

/-! ### Loading -/

/-- The loader keeps the canonical form. -/
theorem Memory.copyIn_wf {m : Memory} (hm : m.wf = true) (start : Nat) (bs : List Byte) :
    (m.copyIn start bs).wf = true := by
  induction bs generalizing m start with
  | nil => exact hm
  | cons b bs ih => exact ih (Memory.write_wf hm _ b) (start + 1)

/-- The loader writes byte j at start + j and nothing else, as long as it stays inside memory (R262). -/
theorem Memory.copyIn_read (m : Memory) (start : Nat) (bs : List Byte) (h : start + bs.length ≤ 4096) (a : Addr) :
    (m.copyIn start bs).read a =
      if start ≤ a.toNat ∧ a.toNat < start + bs.length then bs.getD (a.toNat - start) 0 else m.read a := by
  induction bs generalizing m start with
  | nil =>
    unfold Memory.copyIn
    rw [if_neg]
    simp
  | cons b bs ih =>
    simp only [List.length_cons] at h
    unfold Memory.copyIn
    rw [ih _ (start + 1) (by omega)]
    have ha : a = BitVec.ofNat 12 start ↔ a.toNat = start := by
      constructor
      · intro e; subst e; simp; omega
      · intro e; apply BitVec.eq_of_toNat_eq; simp; omega
    by_cases h1 : a.toNat = start
    · simp [ha, h1]
    · by_cases h2 : start + 1 ≤ a.toNat ∧ a.toNat < start + 1 + bs.length
      · rw [if_pos h2, if_pos (by simp; omega), show a.toNat - start = (a.toNat - (start + 1)) + 1 by omega]
        simp
      · rw [if_neg h2, if_neg (by simp; omega)]
        simp [ha, h1]

/-- State.reset is the construction with the default parameters (R38, R261). -/
theorem construct_default : construct defaultConfig = State.reset := by
  rfl

/-- Construction keeps the canonical form, whatever the font. -/
theorem construct_mem_wf (c : Config) : (construct c).mem.wf = true := Memory.copyIn_wf rfl _ _

/-- Memory after construction (R57): FONT_DATA below 0x050. -/
theorem construct_read_font (c : Config) (a : Addr) (h : a.toNat < 80) :
    (construct c).mem.read a = c.fontData[a.toNat] := by
  have hr := Memory.copyIn_read State.reset.mem fontBase c.fontData.toList (by simp [fontBase]) a
  rw [if_pos (by simp [fontBase]; omega)] at hr
  refine hr.trans ?_
  simp [fontBase, h]

/-- Memory at reset (R57): the default font below 0x050. -/
theorem reset_read_font (a : Addr) (h : a.toNat < 80) :
    State.reset.mem.read a = State.reset.config.fontData[a.toNat] := by
  conv_lhs => rw [← construct_default]
  exact construct_read_font defaultConfig a h

/-- Memory after construction (R57): zero from 0x050 on. -/
theorem construct_read_other (c : Config) (a : Addr) (h : 80 ≤ a.toNat) : (construct c).mem.read a = 0 := by
  have hr := Memory.copyIn_read State.reset.mem fontBase c.fontData.toList (by simp [fontBase]) a
  rw [if_neg (by simp [fontBase]; omega)] at hr
  refine hr.trans ?_
  simp only [State.reset, Memory.read_nil, initialByte]
  exact List.getD_eq_default _ _ h

end Sys2Proof.Machine
end

