-- ==== Sys2Proof/Laws/State.lean ====
section
/-! SUPPORT. One lemma per field per named update of the state, each true by unfolding that update, so that no later
proof unfolds a record update; and reading a register after each update. -/

namespace Sys2Proof.Machine

variable (s : State)

/-! ### setV -/

@[simp] theorem State.setV_v (x : Reg) (b : Byte) : (s.setV x b).v = s.v.set x b := rfl
@[simp] theorem State.setV_I (x : Reg) (b : Byte) : (s.setV x b).I = s.I := rfl
@[simp] theorem State.setV_pc (x : Reg) (b : Byte) : (s.setV x b).pc = s.pc := rfl
@[simp] theorem State.setV_sp (x : Reg) (b : Byte) : (s.setV x b).sp = s.sp := rfl
@[simp] theorem State.setV_stack (x : Reg) (b : Byte) : (s.setV x b).stack = s.stack := rfl
@[simp] theorem State.setV_DT (x : Reg) (b : Byte) : (s.setV x b).DT = s.DT := rfl
@[simp] theorem State.setV_ST (x : Reg) (b : Byte) : (s.setV x b).ST = s.ST := rfl
@[simp] theorem State.setV_disp (x : Reg) (b : Byte) : (s.setV x b).disp = s.disp := rfl
@[simp] theorem State.setV_keys (x : Reg) (b : Byte) : (s.setV x b).keys = s.keys := rfl
@[simp] theorem State.setV_wait (x : Reg) (b : Byte) : (s.setV x b).wait = s.wait := rfl
@[simp] theorem State.setV_status (x : Reg) (b : Byte) : (s.setV x b).status = s.status := rfl
@[simp] theorem State.setV_mem (x : Reg) (b : Byte) : (s.setV x b).mem = s.mem := rfl
@[simp] theorem State.setV_config (x : Reg) (b : Byte) : (s.setV x b).config = s.config := rfl
@[simp] theorem State.setV_schedule (x : Reg) (b : Byte) : (s.setV x b).schedule = s.schedule := rfl
@[simp] theorem State.setV_events (x : Reg) (b : Byte) : (s.setV x b).events = s.events := rfl
@[simp] theorem State.setV_draws (x : Reg) (b : Byte) : (s.setV x b).draws = s.draws := rfl

/-! ### setRegs -/

@[simp] theorem State.setRegs_v (v : Vector Byte 16) : (s.setRegs v).v = v := rfl
@[simp] theorem State.setRegs_I (v : Vector Byte 16) : (s.setRegs v).I = s.I := rfl
@[simp] theorem State.setRegs_pc (v : Vector Byte 16) : (s.setRegs v).pc = s.pc := rfl
@[simp] theorem State.setRegs_sp (v : Vector Byte 16) : (s.setRegs v).sp = s.sp := rfl
@[simp] theorem State.setRegs_stack (v : Vector Byte 16) : (s.setRegs v).stack = s.stack := rfl
@[simp] theorem State.setRegs_DT (v : Vector Byte 16) : (s.setRegs v).DT = s.DT := rfl
@[simp] theorem State.setRegs_ST (v : Vector Byte 16) : (s.setRegs v).ST = s.ST := rfl
@[simp] theorem State.setRegs_disp (v : Vector Byte 16) : (s.setRegs v).disp = s.disp := rfl
@[simp] theorem State.setRegs_keys (v : Vector Byte 16) : (s.setRegs v).keys = s.keys := rfl
@[simp] theorem State.setRegs_wait (v : Vector Byte 16) : (s.setRegs v).wait = s.wait := rfl
@[simp] theorem State.setRegs_status (v : Vector Byte 16) : (s.setRegs v).status = s.status := rfl
@[simp] theorem State.setRegs_mem (v : Vector Byte 16) : (s.setRegs v).mem = s.mem := rfl
@[simp] theorem State.setRegs_config (v : Vector Byte 16) : (s.setRegs v).config = s.config := rfl
@[simp] theorem State.setRegs_schedule (v : Vector Byte 16) : (s.setRegs v).schedule = s.schedule := rfl
@[simp] theorem State.setRegs_events (v : Vector Byte 16) : (s.setRegs v).events = s.events := rfl
@[simp] theorem State.setRegs_draws (v : Vector Byte 16) : (s.setRegs v).draws = s.draws := rfl

/-! ### setI -/

@[simp] theorem State.setI_v (a : Word) : (s.setI a).v = s.v := rfl
@[simp] theorem State.setI_I (a : Word) : (s.setI a).I = a := rfl
@[simp] theorem State.setI_pc (a : Word) : (s.setI a).pc = s.pc := rfl
@[simp] theorem State.setI_sp (a : Word) : (s.setI a).sp = s.sp := rfl
@[simp] theorem State.setI_stack (a : Word) : (s.setI a).stack = s.stack := rfl
@[simp] theorem State.setI_DT (a : Word) : (s.setI a).DT = s.DT := rfl
@[simp] theorem State.setI_ST (a : Word) : (s.setI a).ST = s.ST := rfl
@[simp] theorem State.setI_disp (a : Word) : (s.setI a).disp = s.disp := rfl
@[simp] theorem State.setI_keys (a : Word) : (s.setI a).keys = s.keys := rfl
@[simp] theorem State.setI_wait (a : Word) : (s.setI a).wait = s.wait := rfl
@[simp] theorem State.setI_status (a : Word) : (s.setI a).status = s.status := rfl
@[simp] theorem State.setI_mem (a : Word) : (s.setI a).mem = s.mem := rfl
@[simp] theorem State.setI_config (a : Word) : (s.setI a).config = s.config := rfl
@[simp] theorem State.setI_schedule (a : Word) : (s.setI a).schedule = s.schedule := rfl
@[simp] theorem State.setI_events (a : Word) : (s.setI a).events = s.events := rfl
@[simp] theorem State.setI_draws (a : Word) : (s.setI a).draws = s.draws := rfl
@[simp] theorem State.setI_reg (a : Word) (y : Reg) : (s.setI a).reg y = s.reg y := rfl

/-! ### setPc -/

@[simp] theorem State.setPc_v (a : Word) : (s.setPc a).v = s.v := rfl
@[simp] theorem State.setPc_I (a : Word) : (s.setPc a).I = s.I := rfl
@[simp] theorem State.setPc_pc (a : Word) : (s.setPc a).pc = a := rfl
@[simp] theorem State.setPc_sp (a : Word) : (s.setPc a).sp = s.sp := rfl
@[simp] theorem State.setPc_stack (a : Word) : (s.setPc a).stack = s.stack := rfl
@[simp] theorem State.setPc_DT (a : Word) : (s.setPc a).DT = s.DT := rfl
@[simp] theorem State.setPc_ST (a : Word) : (s.setPc a).ST = s.ST := rfl
@[simp] theorem State.setPc_disp (a : Word) : (s.setPc a).disp = s.disp := rfl
@[simp] theorem State.setPc_keys (a : Word) : (s.setPc a).keys = s.keys := rfl
@[simp] theorem State.setPc_wait (a : Word) : (s.setPc a).wait = s.wait := rfl
@[simp] theorem State.setPc_status (a : Word) : (s.setPc a).status = s.status := rfl
@[simp] theorem State.setPc_mem (a : Word) : (s.setPc a).mem = s.mem := rfl
@[simp] theorem State.setPc_config (a : Word) : (s.setPc a).config = s.config := rfl
@[simp] theorem State.setPc_schedule (a : Word) : (s.setPc a).schedule = s.schedule := rfl
@[simp] theorem State.setPc_events (a : Word) : (s.setPc a).events = s.events := rfl
@[simp] theorem State.setPc_draws (a : Word) : (s.setPc a).draws = s.draws := rfl
@[simp] theorem State.setPc_reg (a : Word) (y : Reg) : (s.setPc a).reg y = s.reg y := rfl

/-! ### setStack -/

@[simp] theorem State.setStack_v (n : Fin 17) (k : Vector Word 16) : (s.setStack n k).v = s.v := rfl
@[simp] theorem State.setStack_I (n : Fin 17) (k : Vector Word 16) : (s.setStack n k).I = s.I := rfl
@[simp] theorem State.setStack_pc (n : Fin 17) (k : Vector Word 16) : (s.setStack n k).pc = s.pc := rfl
@[simp] theorem State.setStack_sp (n : Fin 17) (k : Vector Word 16) : (s.setStack n k).sp = n := rfl
@[simp] theorem State.setStack_stack (n : Fin 17) (k : Vector Word 16) : (s.setStack n k).stack = k := rfl
@[simp] theorem State.setStack_DT (n : Fin 17) (k : Vector Word 16) : (s.setStack n k).DT = s.DT := rfl
@[simp] theorem State.setStack_ST (n : Fin 17) (k : Vector Word 16) : (s.setStack n k).ST = s.ST := rfl
@[simp] theorem State.setStack_disp (n : Fin 17) (k : Vector Word 16) : (s.setStack n k).disp = s.disp := rfl
@[simp] theorem State.setStack_keys (n : Fin 17) (k : Vector Word 16) : (s.setStack n k).keys = s.keys := rfl
@[simp] theorem State.setStack_wait (n : Fin 17) (k : Vector Word 16) : (s.setStack n k).wait = s.wait := rfl
@[simp] theorem State.setStack_status (n : Fin 17) (k : Vector Word 16) : (s.setStack n k).status = s.status := rfl
@[simp] theorem State.setStack_mem (n : Fin 17) (k : Vector Word 16) : (s.setStack n k).mem = s.mem := rfl
@[simp] theorem State.setStack_config (n : Fin 17) (k : Vector Word 16) : (s.setStack n k).config = s.config := rfl
@[simp] theorem State.setStack_schedule (n : Fin 17) (k : Vector Word 16) : (s.setStack n k).schedule = s.schedule := rfl
@[simp] theorem State.setStack_events (n : Fin 17) (k : Vector Word 16) : (s.setStack n k).events = s.events := rfl
@[simp] theorem State.setStack_draws (n : Fin 17) (k : Vector Word 16) : (s.setStack n k).draws = s.draws := rfl
@[simp] theorem State.setStack_reg (n : Fin 17) (k : Vector Word 16) (y : Reg) : (s.setStack n k).reg y = s.reg y := rfl

/-! ### setDT -/

@[simp] theorem State.setDT_v (b : Byte) : (s.setDT b).v = s.v := rfl
@[simp] theorem State.setDT_I (b : Byte) : (s.setDT b).I = s.I := rfl
@[simp] theorem State.setDT_pc (b : Byte) : (s.setDT b).pc = s.pc := rfl
@[simp] theorem State.setDT_sp (b : Byte) : (s.setDT b).sp = s.sp := rfl
@[simp] theorem State.setDT_stack (b : Byte) : (s.setDT b).stack = s.stack := rfl
@[simp] theorem State.setDT_DT (b : Byte) : (s.setDT b).DT = b := rfl
@[simp] theorem State.setDT_ST (b : Byte) : (s.setDT b).ST = s.ST := rfl
@[simp] theorem State.setDT_disp (b : Byte) : (s.setDT b).disp = s.disp := rfl
@[simp] theorem State.setDT_keys (b : Byte) : (s.setDT b).keys = s.keys := rfl
@[simp] theorem State.setDT_wait (b : Byte) : (s.setDT b).wait = s.wait := rfl
@[simp] theorem State.setDT_status (b : Byte) : (s.setDT b).status = s.status := rfl
@[simp] theorem State.setDT_mem (b : Byte) : (s.setDT b).mem = s.mem := rfl
@[simp] theorem State.setDT_config (b : Byte) : (s.setDT b).config = s.config := rfl
@[simp] theorem State.setDT_schedule (b : Byte) : (s.setDT b).schedule = s.schedule := rfl
@[simp] theorem State.setDT_events (b : Byte) : (s.setDT b).events = s.events := rfl
@[simp] theorem State.setDT_draws (b : Byte) : (s.setDT b).draws = s.draws := rfl
@[simp] theorem State.setDT_reg (b : Byte) (y : Reg) : (s.setDT b).reg y = s.reg y := rfl

/-! ### setST -/

@[simp] theorem State.setST_v (b : Byte) : (s.setST b).v = s.v := rfl
@[simp] theorem State.setST_I (b : Byte) : (s.setST b).I = s.I := rfl
@[simp] theorem State.setST_pc (b : Byte) : (s.setST b).pc = s.pc := rfl
@[simp] theorem State.setST_sp (b : Byte) : (s.setST b).sp = s.sp := rfl
@[simp] theorem State.setST_stack (b : Byte) : (s.setST b).stack = s.stack := rfl
@[simp] theorem State.setST_DT (b : Byte) : (s.setST b).DT = s.DT := rfl
@[simp] theorem State.setST_ST (b : Byte) : (s.setST b).ST = b := rfl
@[simp] theorem State.setST_disp (b : Byte) : (s.setST b).disp = s.disp := rfl
@[simp] theorem State.setST_keys (b : Byte) : (s.setST b).keys = s.keys := rfl
@[simp] theorem State.setST_wait (b : Byte) : (s.setST b).wait = s.wait := rfl
@[simp] theorem State.setST_status (b : Byte) : (s.setST b).status = s.status := rfl
@[simp] theorem State.setST_mem (b : Byte) : (s.setST b).mem = s.mem := rfl
@[simp] theorem State.setST_config (b : Byte) : (s.setST b).config = s.config := rfl
@[simp] theorem State.setST_schedule (b : Byte) : (s.setST b).schedule = s.schedule := rfl
@[simp] theorem State.setST_events (b : Byte) : (s.setST b).events = s.events := rfl
@[simp] theorem State.setST_draws (b : Byte) : (s.setST b).draws = s.draws := rfl
@[simp] theorem State.setST_reg (b : Byte) (y : Reg) : (s.setST b).reg y = s.reg y := rfl

/-! ### setDisp -/

@[simp] theorem State.setDisp_v (d : Display) : (s.setDisp d).v = s.v := rfl
@[simp] theorem State.setDisp_I (d : Display) : (s.setDisp d).I = s.I := rfl
@[simp] theorem State.setDisp_pc (d : Display) : (s.setDisp d).pc = s.pc := rfl
@[simp] theorem State.setDisp_sp (d : Display) : (s.setDisp d).sp = s.sp := rfl
@[simp] theorem State.setDisp_stack (d : Display) : (s.setDisp d).stack = s.stack := rfl
@[simp] theorem State.setDisp_DT (d : Display) : (s.setDisp d).DT = s.DT := rfl
@[simp] theorem State.setDisp_ST (d : Display) : (s.setDisp d).ST = s.ST := rfl
@[simp] theorem State.setDisp_disp (d : Display) : (s.setDisp d).disp = d := rfl
@[simp] theorem State.setDisp_keys (d : Display) : (s.setDisp d).keys = s.keys := rfl
@[simp] theorem State.setDisp_wait (d : Display) : (s.setDisp d).wait = s.wait := rfl
@[simp] theorem State.setDisp_status (d : Display) : (s.setDisp d).status = s.status := rfl
@[simp] theorem State.setDisp_mem (d : Display) : (s.setDisp d).mem = s.mem := rfl
@[simp] theorem State.setDisp_config (d : Display) : (s.setDisp d).config = s.config := rfl
@[simp] theorem State.setDisp_schedule (d : Display) : (s.setDisp d).schedule = s.schedule := rfl
@[simp] theorem State.setDisp_events (d : Display) : (s.setDisp d).events = s.events := rfl
@[simp] theorem State.setDisp_draws (d : Display) : (s.setDisp d).draws = s.draws := rfl
@[simp] theorem State.setDisp_reg (d : Display) (y : Reg) : (s.setDisp d).reg y = s.reg y := rfl

/-! ### setKeys -/

@[simp] theorem State.setKeys_v (k16 : BitVec 16) : (s.setKeys k16).v = s.v := rfl
@[simp] theorem State.setKeys_I (k16 : BitVec 16) : (s.setKeys k16).I = s.I := rfl
@[simp] theorem State.setKeys_pc (k16 : BitVec 16) : (s.setKeys k16).pc = s.pc := rfl
@[simp] theorem State.setKeys_sp (k16 : BitVec 16) : (s.setKeys k16).sp = s.sp := rfl
@[simp] theorem State.setKeys_stack (k16 : BitVec 16) : (s.setKeys k16).stack = s.stack := rfl
@[simp] theorem State.setKeys_DT (k16 : BitVec 16) : (s.setKeys k16).DT = s.DT := rfl
@[simp] theorem State.setKeys_ST (k16 : BitVec 16) : (s.setKeys k16).ST = s.ST := rfl
@[simp] theorem State.setKeys_disp (k16 : BitVec 16) : (s.setKeys k16).disp = s.disp := rfl
@[simp] theorem State.setKeys_keys (k16 : BitVec 16) : (s.setKeys k16).keys = k16 := rfl
@[simp] theorem State.setKeys_wait (k16 : BitVec 16) : (s.setKeys k16).wait = s.wait := rfl
@[simp] theorem State.setKeys_status (k16 : BitVec 16) : (s.setKeys k16).status = s.status := rfl
@[simp] theorem State.setKeys_mem (k16 : BitVec 16) : (s.setKeys k16).mem = s.mem := rfl
@[simp] theorem State.setKeys_config (k16 : BitVec 16) : (s.setKeys k16).config = s.config := rfl
@[simp] theorem State.setKeys_schedule (k16 : BitVec 16) : (s.setKeys k16).schedule = s.schedule := rfl
@[simp] theorem State.setKeys_events (k16 : BitVec 16) : (s.setKeys k16).events = s.events := rfl
@[simp] theorem State.setKeys_draws (k16 : BitVec 16) : (s.setKeys k16).draws = s.draws := rfl
@[simp] theorem State.setKeys_reg (k16 : BitVec 16) (y : Reg) : (s.setKeys k16).reg y = s.reg y := rfl

/-! ### setWait -/

@[simp] theorem State.setWait_v (w : Wait) : (s.setWait w).v = s.v := rfl
@[simp] theorem State.setWait_I (w : Wait) : (s.setWait w).I = s.I := rfl
@[simp] theorem State.setWait_pc (w : Wait) : (s.setWait w).pc = s.pc := rfl
@[simp] theorem State.setWait_sp (w : Wait) : (s.setWait w).sp = s.sp := rfl
@[simp] theorem State.setWait_stack (w : Wait) : (s.setWait w).stack = s.stack := rfl
@[simp] theorem State.setWait_DT (w : Wait) : (s.setWait w).DT = s.DT := rfl
@[simp] theorem State.setWait_ST (w : Wait) : (s.setWait w).ST = s.ST := rfl
@[simp] theorem State.setWait_disp (w : Wait) : (s.setWait w).disp = s.disp := rfl
@[simp] theorem State.setWait_keys (w : Wait) : (s.setWait w).keys = s.keys := rfl
@[simp] theorem State.setWait_wait (w : Wait) : (s.setWait w).wait = w := rfl
@[simp] theorem State.setWait_status (w : Wait) : (s.setWait w).status = s.status := rfl
@[simp] theorem State.setWait_mem (w : Wait) : (s.setWait w).mem = s.mem := rfl
@[simp] theorem State.setWait_config (w : Wait) : (s.setWait w).config = s.config := rfl
@[simp] theorem State.setWait_schedule (w : Wait) : (s.setWait w).schedule = s.schedule := rfl
@[simp] theorem State.setWait_events (w : Wait) : (s.setWait w).events = s.events := rfl
@[simp] theorem State.setWait_draws (w : Wait) : (s.setWait w).draws = s.draws := rfl
@[simp] theorem State.setWait_reg (w : Wait) (y : Reg) : (s.setWait w).reg y = s.reg y := rfl

/-! ### setStatus -/

@[simp] theorem State.setStatus_v (r : Status) : (s.setStatus r).v = s.v := rfl
@[simp] theorem State.setStatus_I (r : Status) : (s.setStatus r).I = s.I := rfl
@[simp] theorem State.setStatus_pc (r : Status) : (s.setStatus r).pc = s.pc := rfl
@[simp] theorem State.setStatus_sp (r : Status) : (s.setStatus r).sp = s.sp := rfl
@[simp] theorem State.setStatus_stack (r : Status) : (s.setStatus r).stack = s.stack := rfl
@[simp] theorem State.setStatus_DT (r : Status) : (s.setStatus r).DT = s.DT := rfl
@[simp] theorem State.setStatus_ST (r : Status) : (s.setStatus r).ST = s.ST := rfl
@[simp] theorem State.setStatus_disp (r : Status) : (s.setStatus r).disp = s.disp := rfl
@[simp] theorem State.setStatus_keys (r : Status) : (s.setStatus r).keys = s.keys := rfl
@[simp] theorem State.setStatus_wait (r : Status) : (s.setStatus r).wait = s.wait := rfl
@[simp] theorem State.setStatus_status (r : Status) : (s.setStatus r).status = r := rfl
@[simp] theorem State.setStatus_mem (r : Status) : (s.setStatus r).mem = s.mem := rfl
@[simp] theorem State.setStatus_config (r : Status) : (s.setStatus r).config = s.config := rfl
@[simp] theorem State.setStatus_schedule (r : Status) : (s.setStatus r).schedule = s.schedule := rfl
@[simp] theorem State.setStatus_events (r : Status) : (s.setStatus r).events = s.events := rfl
@[simp] theorem State.setStatus_draws (r : Status) : (s.setStatus r).draws = s.draws := rfl
@[simp] theorem State.setStatus_reg (r : Status) (y : Reg) : (s.setStatus r).reg y = s.reg y := rfl

/-! ### setMem -/

@[simp] theorem State.setMem_v (m : Memory) : (s.setMem m).v = s.v := rfl
@[simp] theorem State.setMem_I (m : Memory) : (s.setMem m).I = s.I := rfl
@[simp] theorem State.setMem_pc (m : Memory) : (s.setMem m).pc = s.pc := rfl
@[simp] theorem State.setMem_sp (m : Memory) : (s.setMem m).sp = s.sp := rfl
@[simp] theorem State.setMem_stack (m : Memory) : (s.setMem m).stack = s.stack := rfl
@[simp] theorem State.setMem_DT (m : Memory) : (s.setMem m).DT = s.DT := rfl
@[simp] theorem State.setMem_ST (m : Memory) : (s.setMem m).ST = s.ST := rfl
@[simp] theorem State.setMem_disp (m : Memory) : (s.setMem m).disp = s.disp := rfl
@[simp] theorem State.setMem_keys (m : Memory) : (s.setMem m).keys = s.keys := rfl
@[simp] theorem State.setMem_wait (m : Memory) : (s.setMem m).wait = s.wait := rfl
@[simp] theorem State.setMem_status (m : Memory) : (s.setMem m).status = s.status := rfl
@[simp] theorem State.setMem_mem (m : Memory) : (s.setMem m).mem = m := rfl
@[simp] theorem State.setMem_config (m : Memory) : (s.setMem m).config = s.config := rfl
@[simp] theorem State.setMem_schedule (m : Memory) : (s.setMem m).schedule = s.schedule := rfl
@[simp] theorem State.setMem_events (m : Memory) : (s.setMem m).events = s.events := rfl
@[simp] theorem State.setMem_draws (m : Memory) : (s.setMem m).draws = s.draws := rfl
@[simp] theorem State.setMem_reg (m : Memory) (y : Reg) : (s.setMem m).reg y = s.reg y := rfl

/-! ### setSchedule -/

@[simp] theorem State.setSchedule_v (ts : List Transition) : (s.setSchedule ts).v = s.v := rfl
@[simp] theorem State.setSchedule_I (ts : List Transition) : (s.setSchedule ts).I = s.I := rfl
@[simp] theorem State.setSchedule_pc (ts : List Transition) : (s.setSchedule ts).pc = s.pc := rfl
@[simp] theorem State.setSchedule_sp (ts : List Transition) : (s.setSchedule ts).sp = s.sp := rfl
@[simp] theorem State.setSchedule_stack (ts : List Transition) : (s.setSchedule ts).stack = s.stack := rfl
@[simp] theorem State.setSchedule_DT (ts : List Transition) : (s.setSchedule ts).DT = s.DT := rfl
@[simp] theorem State.setSchedule_ST (ts : List Transition) : (s.setSchedule ts).ST = s.ST := rfl
@[simp] theorem State.setSchedule_disp (ts : List Transition) : (s.setSchedule ts).disp = s.disp := rfl
@[simp] theorem State.setSchedule_keys (ts : List Transition) : (s.setSchedule ts).keys = s.keys := rfl
@[simp] theorem State.setSchedule_wait (ts : List Transition) : (s.setSchedule ts).wait = s.wait := rfl
@[simp] theorem State.setSchedule_status (ts : List Transition) : (s.setSchedule ts).status = s.status := rfl
@[simp] theorem State.setSchedule_mem (ts : List Transition) : (s.setSchedule ts).mem = s.mem := rfl
@[simp] theorem State.setSchedule_config (ts : List Transition) : (s.setSchedule ts).config = s.config := rfl
@[simp] theorem State.setSchedule_schedule (ts : List Transition) : (s.setSchedule ts).schedule = ts := rfl
@[simp] theorem State.setSchedule_events (ts : List Transition) : (s.setSchedule ts).events = s.events := rfl
@[simp] theorem State.setSchedule_draws (ts : List Transition) : (s.setSchedule ts).draws = s.draws := rfl
@[simp] theorem State.setSchedule_reg (ts : List Transition) (y : Reg) : (s.setSchedule ts).reg y = s.reg y := rfl

/-! ### emit -/

@[simp] theorem State.emit_v (e : Event) : (s.emit e).v = s.v := rfl
@[simp] theorem State.emit_I (e : Event) : (s.emit e).I = s.I := rfl
@[simp] theorem State.emit_pc (e : Event) : (s.emit e).pc = s.pc := rfl
@[simp] theorem State.emit_sp (e : Event) : (s.emit e).sp = s.sp := rfl
@[simp] theorem State.emit_stack (e : Event) : (s.emit e).stack = s.stack := rfl
@[simp] theorem State.emit_DT (e : Event) : (s.emit e).DT = s.DT := rfl
@[simp] theorem State.emit_ST (e : Event) : (s.emit e).ST = s.ST := rfl
@[simp] theorem State.emit_disp (e : Event) : (s.emit e).disp = s.disp := rfl
@[simp] theorem State.emit_keys (e : Event) : (s.emit e).keys = s.keys := rfl
@[simp] theorem State.emit_wait (e : Event) : (s.emit e).wait = s.wait := rfl
@[simp] theorem State.emit_status (e : Event) : (s.emit e).status = s.status := rfl
@[simp] theorem State.emit_mem (e : Event) : (s.emit e).mem = s.mem := rfl
@[simp] theorem State.emit_config (e : Event) : (s.emit e).config = s.config := rfl
@[simp] theorem State.emit_schedule (e : Event) : (s.emit e).schedule = s.schedule := rfl
@[simp] theorem State.emit_events (e : Event) : (s.emit e).events = s.events ++ [e] := rfl
@[simp] theorem State.emit_draws (e : Event) : (s.emit e).draws = s.draws := rfl
@[simp] theorem State.emit_reg (e : Event) (y : Reg) : (s.emit e).reg y = s.reg y := rfl

/-! ### countDraw -/

@[simp] theorem State.countDraw_v : (s.countDraw).v = s.v := rfl
@[simp] theorem State.countDraw_I : (s.countDraw).I = s.I := rfl
@[simp] theorem State.countDraw_pc : (s.countDraw).pc = s.pc := rfl
@[simp] theorem State.countDraw_sp : (s.countDraw).sp = s.sp := rfl
@[simp] theorem State.countDraw_stack : (s.countDraw).stack = s.stack := rfl
@[simp] theorem State.countDraw_DT : (s.countDraw).DT = s.DT := rfl
@[simp] theorem State.countDraw_ST : (s.countDraw).ST = s.ST := rfl
@[simp] theorem State.countDraw_disp : (s.countDraw).disp = s.disp := rfl
@[simp] theorem State.countDraw_keys : (s.countDraw).keys = s.keys := rfl
@[simp] theorem State.countDraw_wait : (s.countDraw).wait = s.wait := rfl
@[simp] theorem State.countDraw_status : (s.countDraw).status = s.status := rfl
@[simp] theorem State.countDraw_mem : (s.countDraw).mem = s.mem := rfl
@[simp] theorem State.countDraw_config : (s.countDraw).config = s.config := rfl
@[simp] theorem State.countDraw_schedule : (s.countDraw).schedule = s.schedule := rfl
@[simp] theorem State.countDraw_events : (s.countDraw).events = s.events := rfl
@[simp] theorem State.countDraw_draws : (s.countDraw).draws = s.draws + 1 := rfl
@[simp] theorem State.countDraw_reg (y : Reg) : (s.countDraw).reg y = s.reg y := rfl

/-! ### advance -/

@[simp] theorem State.advance_v : (s.advance).v = s.v := rfl
@[simp] theorem State.advance_I : (s.advance).I = s.I := rfl
@[simp] theorem State.advance_pc : (s.advance).pc = s.pc + 2 := rfl
@[simp] theorem State.advance_sp : (s.advance).sp = s.sp := rfl
@[simp] theorem State.advance_stack : (s.advance).stack = s.stack := rfl
@[simp] theorem State.advance_DT : (s.advance).DT = s.DT := rfl
@[simp] theorem State.advance_ST : (s.advance).ST = s.ST := rfl
@[simp] theorem State.advance_disp : (s.advance).disp = s.disp := rfl
@[simp] theorem State.advance_keys : (s.advance).keys = s.keys := rfl
@[simp] theorem State.advance_wait : (s.advance).wait = s.wait := rfl
@[simp] theorem State.advance_status : (s.advance).status = s.status := rfl
@[simp] theorem State.advance_mem : (s.advance).mem = s.mem := rfl
@[simp] theorem State.advance_config : (s.advance).config = s.config := rfl
@[simp] theorem State.advance_schedule : (s.advance).schedule = s.schedule := rfl
@[simp] theorem State.advance_events : (s.advance).events = s.events := rfl
@[simp] theorem State.advance_draws : (s.advance).draws = s.draws := rfl
@[simp] theorem State.advance_reg (y : Reg) : (s.advance).reg y = s.reg y := rfl

/-! ### halt -/

@[simp] theorem State.halt_v (r : HaltReason) : (s.halt r).v = s.v := rfl
@[simp] theorem State.halt_I (r : HaltReason) : (s.halt r).I = s.I := rfl
@[simp] theorem State.halt_pc (r : HaltReason) : (s.halt r).pc = s.pc := rfl
@[simp] theorem State.halt_sp (r : HaltReason) : (s.halt r).sp = s.sp := rfl
@[simp] theorem State.halt_stack (r : HaltReason) : (s.halt r).stack = s.stack := rfl
@[simp] theorem State.halt_DT (r : HaltReason) : (s.halt r).DT = s.DT := rfl
@[simp] theorem State.halt_ST (r : HaltReason) : (s.halt r).ST = s.ST := rfl
@[simp] theorem State.halt_disp (r : HaltReason) : (s.halt r).disp = s.disp := rfl
@[simp] theorem State.halt_keys (r : HaltReason) : (s.halt r).keys = s.keys := rfl
@[simp] theorem State.halt_wait (r : HaltReason) : (s.halt r).wait = s.wait := rfl
@[simp] theorem State.halt_status (r : HaltReason) : (s.halt r).status = .halted r := rfl
@[simp] theorem State.halt_mem (r : HaltReason) : (s.halt r).mem = s.mem := rfl
@[simp] theorem State.halt_config (r : HaltReason) : (s.halt r).config = s.config := rfl
@[simp] theorem State.halt_schedule (r : HaltReason) : (s.halt r).schedule = s.schedule := rfl
@[simp] theorem State.halt_events (r : HaltReason) : (s.halt r).events = s.events := rfl
@[simp] theorem State.halt_draws (r : HaltReason) : (s.halt r).draws = s.draws := rfl
@[simp] theorem State.halt_reg (r : HaltReason) (y : Reg) : (s.halt r).reg y = s.reg y := rfl

/-! ### Registers -/

/-- A write to V[x] changes V[x] alone (R13, R20). -/
@[simp] theorem State.setV_reg (x : Reg) (b : Byte) (y : Reg) : (s.setV x b).reg y = if y = x then b else s.reg y := by
  simp only [State.reg, State.setV, Vector.get_eq_getElem, Vector.getElem_set]
  by_cases h : y = x
  · subst h; simp
  · have : x.val ≠ y.val := fun e => h (Fin.ext e.symm)
    simp [h, this]

@[simp] theorem State.setRegs_reg (v : Vector Byte 16) (y : Reg) : (s.setRegs v).reg y = v.get y := rfl

/-- The result, then the flag: VF is the flag whatever x is (R121). -/
theorem State.writeResultThenFlag_reg (x : Reg) (r : Byte) (f : Bool) (y : Reg) :
    (s.writeResultThenFlag x r f).reg y = if y = flagReg then flagByte f else if y = x then r else s.reg y := by
  simp [State.writeResultThenFlag]

end Sys2Proof.Machine
end

