-- ==== Sys2Proof/Laws/Machine.lean ====
section
/-! SUPPORT. What each shared operation of the machine can do: one lemma each, which proofs cite instead of unfolding
it. -/

namespace Sys2Proof.Machine

/-! ### Addresses and operands -/

theorem dataAddr_toNat (base : Word) (r : Nat) : (dataAddr base r).toNat = (base.toNat + r) % 4096 := by
  simp [dataAddr]

theorem isTargetAt_iff {base : Word} {r : Nat} {a : Addr} : isTargetAt base r a ↔ a = dataAddr base r := by
  rw [isTargetAt, ← dataAddr_toNat]
  exact ⟨BitVec.eq_of_toNat_eq, fun e => e ▸ rfl⟩

theorem isTarget_iff {base : Word} {n : Nat} {a : Addr} :
    isTarget base n a ↔ ∃ r, r < n ∧ a = dataAddr base r := by
  simp only [isTarget, isTargetAt_iff]

theorem addrImmediate_toNat (nnn : Addr) : (addrImmediate nnn).toNat = nnn.toNat := by
  simp [addrImmediate]; omega

theorem byteToWord_toNat (b : Byte) : (byteToWord b).toNat = b.toNat := by
  simp [byteToWord]; omega

/-- The computed jump target never wraps (R23, R107). -/
theorem jumpOffsetTarget_toNat (nnn : Addr) (b : Byte) : (jumpOffsetTarget nnn b).toNat = nnn.toNat + b.toNat := by
  simp only [jumpOffsetTarget, BitVec.toNat_add, addrImmediate_toNat, byteToWord_toNat]
  omega

theorem glyphAddr_toNat (b : Byte) : (glyphAddr b).toNat = b.toNat * 5 := by
  simp only [glyphAddr, fontGlyphBytes, BitVec.toNat_ofNat]
  omega

theorem flagByte_toNat (f : Bool) : (flagByte f).toNat = if f then 1 else 0 := by cases f <;> rfl

/-! ### The program counter -/

/-- A skip changes pc alone, by 4 or by 2 (R76). -/
theorem State.skipIf_eq (s : State) (c : Bool) : s.skipIf c = s.setPc (s.pc + if c then 4 else 2) := by
  cases c <;> rfl

/-! ### The call stack -/

/-- Push has room below 16 (R26). -/
theorem State.push_eq (s : State) (v : Word) (h : s.sp.val < 16) :
    s.push v = some (s.setStack ⟨s.sp.val + 1, by omega⟩ (s.stack.set s.sp.val v h)) := by
  simp [State.push, h]

theorem State.push_full (s : State) (v : Word) (h : s.sp.val = 16) : s.push v = none := by
  simp [State.push, h]

/-- All Push can do (R26). -/
theorem State.push_cases (s : State) (v : Word) :
    (s.sp.val = 16 ∧ s.push v = none) ∨
      ∃ h : s.sp.val < 16, s.push v = some (s.setStack ⟨s.sp.val + 1, by omega⟩ (s.stack.set s.sp.val v h)) := by
  by_cases h : s.sp.val < 16
  · exact .inr ⟨h, s.push_eq v h⟩
  · exact .inl ⟨by omega, s.push_full v (by omega)⟩

theorem State.pop_eq (s : State) (h : 0 < s.sp.val) :
    s.pop = some (s.stack[s.sp.val - 1]'(by omega), s.setStack ⟨s.sp.val - 1, by omega⟩ s.stack) := by
  simp [State.pop, h]

theorem State.pop_empty (s : State) (h : s.sp.val = 0) : s.pop = none := by
  simp [State.pop, h]

/-- All Pop can do (R27). -/
theorem State.pop_cases (s : State) :
    (s.sp.val = 0 ∧ s.pop = none) ∨
      ∃ h : 0 < s.sp.val, s.pop = some (s.stack[s.sp.val - 1]'(by omega), s.setStack ⟨s.sp.val - 1, by omega⟩ s.stack) := by
  by_cases h : 0 < s.sp.val
  · exact .inr ⟨h, s.pop_eq h⟩
  · exact .inl ⟨by omega, s.pop_empty (by omega)⟩

/-! ### Stores -/

/-- All a store can do (R55): under FAULT with a font target it halts, recording the lowest font target; otherwise it
writes its bytes and pc advances. -/
theorem State.storeBytes_cases (s : State) (w : Word) (bs : List Byte) :
    (s.config.fontWritePolicy = .fault ∧
      ∃ a, lowestFontTarget (dataAddrs s.I bs.length) = some a ∧ s.storeBytes w bs = s.halt (.fontWrite s.pc w a)) ∨
    ((s.config.fontWritePolicy = .fault → lowestFontTarget (dataAddrs s.I bs.length) = none) ∧
      s.storeBytes w bs = (s.setMem (s.mem.storeRun s.config.fontWritePolicy s.I 0 bs)).advance) := by
  unfold State.storeBytes
  cases hp : s.config.fontWritePolicy <;> cases hl : lowestFontTarget (dataAddrs s.I bs.length) <;> simp

theorem State.not_heldBack (s : State) (a : Addr) :
    ¬ s.heldBack a ↔ (inFont a = false ∨ s.config.fontWritePolicy = .write) := by
  rw [State.heldBack, inFont_eq_false]
  by_cases h : s.config.fontWritePolicy = .write <;> simp [h]

/-- A store the font policy allows (R55). -/
theorem State.storeBytes_allowed {s : State} (w : Word) {bs : List Byte} (h : s.storeAllowed bs.length) :
    s.storeBytes w bs = (s.setMem (s.mem.storeRun s.config.fontWritePolicy s.I 0 bs)).advance := by
  rcases s.storeBytes_cases w bs with ⟨hp, a, ha, -⟩ | ⟨-, h'⟩
  · obtain ⟨hm, hf, -⟩ := lowestFontTarget_some ha
    have h1 := h hp a (isTarget_iff.2 (mem_dataAddrs.1 hm))
    have h2 := inFont_eq_true.1 hf
    omega
  · exact h'

/-- All an allowed store does (R54, R55): pc advances, each byte lands at its own target unless the policy holds it
back, and nothing else changes. -/
theorem State.storeBytes_stores {s : State} (w : Word) {bs : List Byte} (hl : bs.length ≤ 4096)
    (h : s.storeAllowed bs.length) :
    (s.storeBytes w bs).pc = s.pc + 2 ∧
    (∀ (a : Addr) (r : Nat) (hr : r < bs.length), isTargetAt s.I r a → ¬ s.heldBack a →
      (s.storeBytes w bs).mem.read a = bs[r]) ∧
    (∀ a, s.heldBack a → (s.storeBytes w bs).mem.read a = s.mem.read a) ∧
    Frame (fun p => p = .pc ∨ ∃ a, isTarget s.I bs.length a ∧ ¬ s.heldBack a ∧ p = .byte a) s (s.storeBytes w bs) := by
  rw [State.storeBytes_allowed w h]
  have hb : ∀ a, s.heldBack a → (s.mem.storeRun s.config.fontWritePolicy s.I 0 bs).read a = s.mem.read a :=
    fun a ha => Memory.storeRun_read_font ha.2 _ _ _ _ (inFont_eq_true.2 ha.1)
  refine ⟨rfl, ?_, hb, ?_⟩
  · intro a r hr ha hh
    rw [isTargetAt_iff] at ha
    subst ha
    have := Memory.storeRun_read s.config.fontWritePolicy s.mem s.I 0 bs hl r hr
    rw [Nat.zero_add] at this
    simp only [State.advance_mem, State.setMem_mem]
    rw [this, if_pos ((s.not_heldBack _).1 hh)]
  · intro p hp
    cases p <;> simp_all [Part.kept]
    rename_i a
    by_cases hh : s.heldBack a
    · exact hb a hh
    · apply Memory.storeRun_read_other
      intro j hj e
      rw [Nat.zero_add] at e
      exact hh (hp (isTarget_iff.2 ⟨j, hj, e⟩))

/-- All a store the font check stops does (R55, R224). -/
theorem State.storeBytes_halts {s : State} (w : Word) {bs : List Byte} (h : ¬ s.storeAllowed bs.length) :
    HaltsOnFontWrite s (s.storeBytes w bs) bs.length w := by
  rcases s.storeBytes_cases w bs with ⟨hp, a, ha, e⟩ | ⟨h1, e⟩
  · rw [e]
    obtain ⟨hm, hf, hmin⟩ := lowestFontTarget_some ha
    refine ⟨⟨a, isTarget_iff.2 (mem_dataAddrs.1 hm), inFont_eq_true.1 hf, ?_, rfl⟩, ?_⟩
    · intro b hb
      by_cases hbf : inFont b = true
      · exact hmin b (mem_dataAddrs.2 (isTarget_iff.1 hb)) hbf
      · have h1 := inFont_eq_false.1 (by simpa using hbf)
        have h2 := inFont_eq_true.1 hf
        omega
    · intro p hp; cases p <;> simp_all [Part.kept]
  · exact absurd (fun hp a ha => inFont_eq_false.1 (lowestFontTarget_none.1 (h1 hp) a (mem_dataAddrs.2 (isTarget_iff.1 ha)))) h

/-! ### The keypad and the environment (R196, R230, R246, R228) -/

/-- All KeyPress can do (R196). -/
theorem keyPress_cases (k : Key) (s : State) :
    (s.wait = .none ∧ keyPress k s = s) ∨
      ∃ x, s.wait = .awaiting x ∧ keyPress k s = ((s.setV x (BitVec.ofNat 8 k.val)).setWait .none).advance := by
  cases h : s.wait <;> simp [keyPress, h]

theorem countDown_toNat (b : Byte) : (countDown b).toNat = b.toNat - 1 := by
  unfold countDown
  split
  · rename_i h; simp [h]
  · rename_i h
    have : b.toNat ≠ 0 := fun e => h (BitVec.eq_of_toNat_eq e)
    rw [BitVec.toNat_sub]
    simp
    omega

/-- All Tick can do (R230, R231). -/
theorem tick_eq (s : State) :
    tick s = if s.ST = 1 then ((s.setDT (countDown s.DT)).setST (countDown s.ST)).emit .soundCue
      else (s.setDT (countDown s.DT)).setST (countDown s.ST) := rfl

/-! ### The engine -/

/-- Fetch inside memory (R52). -/
theorem fetch_eq {s : State} (h : s.pc.toNat ≤ 0x0FFE) :
    fetch s = some (wordOfBytes (s.mem.read (BitVec.ofNat 12 s.pc.toNat)) (s.mem.read (BitVec.ofNat 12 (s.pc.toNat + 1)))) := by
  simp [fetch]; omega

/-- Fetch outside memory (R52). -/
theorem fetch_none {s : State} : fetch s = none ↔ 0x0FFE < s.pc.toNat := by
  simp [fetch]; omega

theorem fetch_some {s : State} {w : Word} (h : fetch s = some w) : s.pc.toNat ≤ 0x0FFE := by
  by_contra hc
  rw [fetch_none.2 (by omega)] at h
  cases h

/-- All the engine's Step can do (R77, R78, R193). -/
theorem engineStep_cases (s : State) :
    (∃ x, s.wait = .awaiting x ∧ engineStep s = .next s) ∨
    (s.wait = .none ∧ 0x0FFE < s.pc.toNat ∧ engineStep s = .next (s.halt (.fetchOutOfBounds s.pc))) ∨
    (∃ w r, s.wait = .none ∧ fetch s = some w ∧ decode w = .error r ∧
      engineStep s = .next (s.emit (.unknownOpcode s.pc w)).advance) ∨
    (∃ w i, s.wait = .none ∧ fetch s = some w ∧ decode w = .ok i ∧ engineStep s = exec i s) := by
  unfold engineStep
  cases hw : s.wait with
  | awaiting x => exact .inl ⟨x, rfl, rfl⟩
  | none =>
    cases hf : fetch s with
    | none => exact .inr (.inl ⟨rfl, fetch_none.1 hf, rfl⟩)
    | some w =>
      cases hd : decode w with
      | error r => exact .inr (.inr (.inl ⟨w, r, rfl, rfl, hd, by simp [hd, execUnknown]⟩))
      | ok i => exact .inr (.inr (.inr ⟨w, i, rfl, rfl, hd, by simp [hd]⟩))

/-- A running core takes the oldest scheduled transition, or Step (R240, R243). -/
theorem step_running {s : State} (h : s.status = .running) :
    step s = match s.schedule with
      | [] => engineStep s
      | t :: ts => takeTransition t (s.setSchedule ts) := by
  cases hq : s.schedule <;> simp [step, runNext, h, hq]

/-- After a halt there is no transition (R224). -/
theorem step_halted {s : State} {r : HaltReason} (h : s.status = .halted r) : step s = .fault (.halted r) := by
  simp [step, runNext, h]

/-- All a step that answers a next state can do: an engine Step with nothing scheduled, or the oldest scheduled
transition, of a running core. -/
theorem step_cases {s t : State} (h : step s = .next t) :
    s.status = .running ∧
      ((s.schedule = [] ∧ engineStep s = .next t) ∨
        ∃ tr ts, s.schedule = tr :: ts ∧ takeTransition tr (s.setSchedule ts) = .next t) := by
  cases hs : s.status with
  | halted r => rw [step_halted hs] at h; cases h
  | running =>
    rw [step_running hs] at h
    cases hq : s.schedule with
    | nil => rw [hq] at h; exact ⟨rfl, .inl ⟨rfl, h⟩⟩
    | cons tr ts => rw [hq] at h; exact ⟨rfl, .inr ⟨tr, ts, rfl, h⟩⟩

/-- Where the core is ready to step, a step is the engine's Step (R77). -/
theorem step_ready {s : State} (h : s.readyToStep) : step s = engineStep s := by
  rw [step_running h.1, h.2.2]

/-- Where the core is ready to step and the word at pc decodes, a step runs that instruction (R77). -/
theorem engineStep_decoded {s : State} {w : Word} {i : Instr} (hw : s.wait = .none) (hf : fetch s = some w)
    (hd : decode w = .ok i) : engineStep s = exec i s := by
  simp [engineStep, hw, hf, hd]

/-- The loader, an image of at least one byte (R262). -/
theorem State.load_some (s : State) (b : Byte) (bs : List Byte) :
    s.load (some (b :: bs)) = s.setMem (s.mem.copyIn programBase ((b :: bs).take imageCapacity)) := rfl

end Sys2Proof.Machine
end

