-- ==== Sys2Proof/Laws/PerInstr.lean ====
section
/-! SUPPORT. The family EncodeInRow, one lemma per instruction: the word of an instruction lies in the instruction's own
row of the opcode map (30_encoding.md R74, R82). -/

namespace Sys2Proof.Laws.EncodeInRow

/-- The word of `i` matches the mask and match of `i`'s row of R74. -/
def Statement (i : Instr) : Prop := encode i &&& (rowOf i).mask = (rowOf i).pattern

theorem cls : Statement (.cls) := rfl

theorem ret : Statement (.ret) := rfl

theorem jpNnn (nnn : Addr) : Statement (.jpNnn nnn) := (encNnn_and_F000 _ _).trans rfl

theorem callNnn (nnn : Addr) : Statement (.callNnn nnn) := (encNnn_and_F000 _ _).trans rfl

theorem seVxKk (x : Reg) (kk : Byte) : Statement (.seVxKk x kk) := (encXkk_and_F000 _ _ _).trans rfl

theorem sneVxKk (x : Reg) (kk : Byte) : Statement (.sneVxKk x kk) := (encXkk_and_F000 _ _ _).trans rfl

theorem seVxVy (x y : Reg) : Statement (.seVxVy x y) := (encXyn_and_F00F _ _ _ _).trans rfl

theorem ldVxKk (x : Reg) (kk : Byte) : Statement (.ldVxKk x kk) := (encXkk_and_F000 _ _ _).trans rfl

theorem addVxKk (x : Reg) (kk : Byte) : Statement (.addVxKk x kk) := (encXkk_and_F000 _ _ _).trans rfl

theorem ldVxVy (x y : Reg) : Statement (.ldVxVy x y) := (encXyn_and_F00F _ _ _ _).trans rfl

theorem orVxVy (x y : Reg) : Statement (.orVxVy x y) := (encXyn_and_F00F _ _ _ _).trans rfl

theorem andVxVy (x y : Reg) : Statement (.andVxVy x y) := (encXyn_and_F00F _ _ _ _).trans rfl

theorem xorVxVy (x y : Reg) : Statement (.xorVxVy x y) := (encXyn_and_F00F _ _ _ _).trans rfl

theorem addVxVy (x y : Reg) : Statement (.addVxVy x y) := (encXyn_and_F00F _ _ _ _).trans rfl

theorem subVxVy (x y : Reg) : Statement (.subVxVy x y) := (encXyn_and_F00F _ _ _ _).trans rfl

theorem shrVxVy (x y : Reg) : Statement (.shrVxVy x y) := (encXyn_and_F00F _ _ _ _).trans rfl

theorem subnVxVy (x y : Reg) : Statement (.subnVxVy x y) := (encXyn_and_F00F _ _ _ _).trans rfl

theorem shlVxVy (x y : Reg) : Statement (.shlVxVy x y) := (encXyn_and_F00F _ _ _ _).trans rfl

theorem sneVxVy (x y : Reg) : Statement (.sneVxVy x y) := (encXyn_and_F00F _ _ _ _).trans rfl

theorem ldINnn (nnn : Addr) : Statement (.ldINnn nnn) := (encNnn_and_F000 _ _).trans rfl

theorem jpV0Nnn (nnn : Addr) : Statement (.jpV0Nnn nnn) := (encNnn_and_F000 _ _).trans rfl

theorem rndVxKk (x : Reg) (kk : Byte) : Statement (.rndVxKk x kk) := (encXkk_and_F000 _ _ _).trans rfl

theorem drwVxVyN (x y : Reg) (n : Nibble) : Statement (.drwVxVyN x y n) := (encXyn_and_F000 _ _ _ _).trans rfl

theorem skpVx (x : Reg) : Statement (.skpVx x) := (encXkk_and_F0FF _ _ _).trans rfl

theorem sknpVx (x : Reg) : Statement (.sknpVx x) := (encXkk_and_F0FF _ _ _).trans rfl

theorem ldVxDt (x : Reg) : Statement (.ldVxDt x) := (encXkk_and_F0FF _ _ _).trans rfl

theorem ldVxK (x : Reg) : Statement (.ldVxK x) := (encXkk_and_F0FF _ _ _).trans rfl

theorem ldDtVx (x : Reg) : Statement (.ldDtVx x) := (encXkk_and_F0FF _ _ _).trans rfl

theorem ldStVx (x : Reg) : Statement (.ldStVx x) := (encXkk_and_F0FF _ _ _).trans rfl

theorem addIVx (x : Reg) : Statement (.addIVx x) := (encXkk_and_F0FF _ _ _).trans rfl

theorem ldFVx (x : Reg) : Statement (.ldFVx x) := (encXkk_and_F0FF _ _ _).trans rfl

theorem ldBVx (x : Reg) : Statement (.ldBVx x) := (encXkk_and_F0FF _ _ _).trans rfl

theorem ldMemIVx (x : Reg) : Statement (.ldMemIVx x) := (encXkk_and_F0FF _ _ _).trans rfl

theorem ldVxMemI (x : Reg) : Statement (.ldVxMemI x) := (encXkk_and_F0FF _ _ _).trans rfl

end Sys2Proof.Laws.EncodeInRow

namespace Sys2Proof

/-- Every instruction is well formed: no operand is out of range (R72). -/
@[simp] theorem wellFormed_all (i : Instr) : i.wellFormed = true := by
  have h : Laws.EncodeInRow.Statement i := by
    cases i
    · exact Laws.EncodeInRow.cls
    · exact Laws.EncodeInRow.ret
    · exact Laws.EncodeInRow.jpNnn _
    · exact Laws.EncodeInRow.callNnn _
    · exact Laws.EncodeInRow.seVxKk _ _
    · exact Laws.EncodeInRow.sneVxKk _ _
    · exact Laws.EncodeInRow.seVxVy _ _
    · exact Laws.EncodeInRow.ldVxKk _ _
    · exact Laws.EncodeInRow.addVxKk _ _
    · exact Laws.EncodeInRow.ldVxVy _ _
    · exact Laws.EncodeInRow.orVxVy _ _
    · exact Laws.EncodeInRow.andVxVy _ _
    · exact Laws.EncodeInRow.xorVxVy _ _
    · exact Laws.EncodeInRow.addVxVy _ _
    · exact Laws.EncodeInRow.subVxVy _ _
    · exact Laws.EncodeInRow.shrVxVy _ _
    · exact Laws.EncodeInRow.subnVxVy _ _
    · exact Laws.EncodeInRow.shlVxVy _ _
    · exact Laws.EncodeInRow.sneVxVy _ _
    · exact Laws.EncodeInRow.ldINnn _
    · exact Laws.EncodeInRow.jpV0Nnn _
    · exact Laws.EncodeInRow.rndVxKk _ _
    · exact Laws.EncodeInRow.drwVxVyN _ _ _
    · exact Laws.EncodeInRow.skpVx _
    · exact Laws.EncodeInRow.sknpVx _
    · exact Laws.EncodeInRow.ldVxDt _
    · exact Laws.EncodeInRow.ldVxK _
    · exact Laws.EncodeInRow.ldDtVx _
    · exact Laws.EncodeInRow.ldStVx _
    · exact Laws.EncodeInRow.addIVx _
    · exact Laws.EncodeInRow.ldFVx _
    · exact Laws.EncodeInRow.ldBVx _
    · exact Laws.EncodeInRow.ldMemIVx _
    · exact Laws.EncodeInRow.ldVxMemI _
  simpa [Instr.wellFormed, OpcodeRow.holds, Laws.EncodeInRow.Statement] using h

end Sys2Proof
end

