-- ==== Sys2Proof/Laws/Scheduler.lean ====
section
/-! SUPPORT. What the operations of the reference scheduler can do (60_exceptions.md R241). -/

namespace Sys2Proof.Machine

@[simp] theorem Run.take_core (r : Run) (t : Transition) : (r.take t).core = r.core.take t := rfl
@[simp] theorem Run.take_taken (r : Run) (t : Transition) : (r.take t).taken = r.taken ++ [t] := rfl
@[simp] theorem Run.start_core (s : State) : (Run.start s).core = s := rfl
@[simp] theorem Run.start_taken (s : State) : (Run.start s).taken = [] := rfl

/-- Taking a list of transitions: the core takes them in order and the record gains them. -/
theorem Run.foldl_take (ts : List Transition) (r : Run) :
    ts.foldl Run.take r = { core := ts.foldl State.take r.core, taken := r.taken ++ ts } := by
  induction ts generalizing r with
  | nil => simp
  | cons t ts ih => simp [ih]

/-- All a turn of the instruction loop can do (R241): it refreshes the keys, and then steps, delivers the host's key
press, or does nothing more. -/
theorem instrSlot_cases (k : BitVec 16) (press : Option Key) (r : Run) :
    ∃ ts : List Transition, instrSlot k press r = ts.foldl Run.take r ∧
      (ts = [.setKeys k, .step] ∨ (∃ j, press = some j ∧ ts = [.setKeys k, .keyPress j]) ∨
        (press = none ∧ ts = [.setKeys k])) := by
  unfold instrSlot
  dsimp only
  split
  · exact ⟨_, rfl, .inl rfl⟩
  · exact ⟨[.setKeys k, .keyPress _], rfl, .inr (.inl ⟨_, rfl, rfl⟩)⟩
  · exact ⟨[.setKeys k], rfl, .inr (.inr ⟨rfl, rfl⟩)⟩

/-- The while loop of R241 takes whole periods off an accumulator and leaves at most one. -/
theorem firings_spec (acc p : Nat) (hp : 0 < p) : firings acc p * p ≤ acc ∧ acc - firings acc p * p ≤ p := by
  unfold firings
  have h1 := Nat.div_add_mod (acc - 1) p
  have h2 := Nat.mod_lt (acc - 1) hp
  rw [Nat.mul_comm] at h1
  omega

end Sys2Proof.Machine
end

