-- ==== Sys2Proof/Tests/Slice0.lean ====
section
/-! SUPPORT. Tests. Expected results are the spec's: the encodings of R74 written out bit by bit, and the vectors of
95_test_vectors.md (named in each comment). Then, for every obligation with hypotheses, a witness that meets them. -/

namespace Sys2Proof.Tests

open Sys2Proof Sys2Proof.Machine

/-! ### Helpers -/

/-- The reset state with some registers set. -/
def withRegs (l : List (Reg × Byte)) : State := l.foldl (fun s p => s.setV p.1 p.2) State.reset

/-- What `f` sees after one step that runs word `w`, if there is a next state. -/
def after {α : Type} (s : State) (w : Nat) (f : State → α) : Option α :=
  match step (s.withFetchWord 16 w) with
  | .next t => some (f t)
  | _ => none

/-- What `f` sees after one step as the state stands. -/
def afterStep {α : Type} (s : State) (f : State → α) : Option α :=
  match step s with
  | .next t => some (f t)
  | _ => none

/-- What `f` sees after the transitions, in order, from a running core. -/
def afterAll {α : Type} (s : State) (ts : List Transition) (f : State → α) : α := f (ts.foldl State.take s)

/-- How many pixels are set. -/
def litCount (d : Display) : Nat := (d.toList.map (fun r => r.toList.count true)).sum

/-- Pixels, column first. -/
def allLit (d : Display) (l : List (Fin 64 × Fin 32)) : Bool := l.all (fun p => d.pixel p.1 p.2)

/-- The bytes at consecutive addresses. -/
def bytesAt (s : State) (a n : Nat) : List Byte := (List.range n).map (fun r => s.mem.read (BitVec.ofNat 12 (a + r)))

/-- Bytes written to memory. -/
def withBytes (s : State) (a : Nat) (bs : List Byte) : State := s.setMem (s.mem.copyIn a bs)

/-- The reset state under another policy of R55 (the font is the default one). -/
def withPolicy (p : FontWritePolicy) : State := { State.reset with config := { defaultConfig with fontWritePolicy := p } }

/-- The reset state with SHIFT_SOURCE = VY (R10). -/
def shiftsVy : State := { State.reset with config := { defaultConfig with shiftSource := .vy } }

/-- The reset state with `n` return addresses stacked, slot j holding `0x300 + j`. -/
def stacked (n : Fin 17) : State := State.reset.setStack n (Vector.ofFn (fun j => BitVec.ofNat 16 (0x300 + j.val)))

/-! ### WellFormed: an ill-formed word for each family of R75, refused by the check and by the decoder by name -/

theorem test_well_formed_row : wordWellFormed 0x8014 = true := by decide
theorem test_ill_formed_0 : wordWellFormed 0x0123 = false ∧ decode 0x0123 = .error .unmapped0 := by decide
theorem test_ill_formed_5 : wordWellFormed 0x5121 = false ∧ decode 0x5121 = .error .unmapped5 := by decide
theorem test_ill_formed_8 : wordWellFormed 0x8128 = false ∧ decode 0x8128 = .error .unmapped8 := by decide
theorem test_ill_formed_8F : wordWellFormed 0x800F = false ∧ decode 0x800F = .error .unmapped8 := by decide
theorem test_ill_formed_9 : wordWellFormed 0x9121 = false ∧ decode 0x9121 = .error .unmapped9 := by decide
theorem test_ill_formed_E : wordWellFormed 0xE09F = false ∧ decode 0xE09F = .error .unmappedE := by decide
theorem test_ill_formed_F : wordWellFormed 0xF075 = false ∧ decode 0xF075 = .error .unmappedF := by decide
theorem test_truncated : decodeBytes [0x60] = .error .truncated := by decide
theorem test_instr_well_formed : Instr.wellFormed (.drwVxVyN 15 15 15) = true := by decide

/-! ### Decode: one word per constructor, its bits written out from the formats of R73 and the rows of R74 -/

theorem test_decode_cls : decode 0b0000_0000_1110_0000 = .ok .cls := by decide
theorem test_decode_ret : decode 0b0000_0000_1110_1110 = .ok .ret := by decide
theorem test_decode_jpNnn : decode 0b0001_0010_0011_0100 = .ok (.jpNnn 0x234) := by decide
theorem test_decode_callNnn : decode 0b0010_0010_0001_0110 = .ok (.callNnn 0x216) := by decide
theorem test_decode_seVxKk : decode 0b0011_0011_0001_0000 = .ok (.seVxKk 3 0x10) := by decide
theorem test_decode_sneVxKk : decode 0b0100_0011_0001_0000 = .ok (.sneVxKk 3 0x10) := by decide
theorem test_decode_seVxVy : decode 0b0101_0001_0010_0000 = .ok (.seVxVy 1 2) := by decide
theorem test_decode_ldVxKk : decode 0b0110_0000_0000_0101 = .ok (.ldVxKk 0 0x05) := by decide
theorem test_decode_addVxKk : decode 0b0111_0000_0000_0011 = .ok (.addVxKk 0 0x03) := by decide
theorem test_decode_ldVxVy : decode 0b1000_0001_0010_0000 = .ok (.ldVxVy 1 2) := by decide
theorem test_decode_orVxVy : decode 0b1000_0001_0010_0001 = .ok (.orVxVy 1 2) := by decide
theorem test_decode_andVxVy : decode 0b1000_1111_0001_0010 = .ok (.andVxVy 15 1) := by decide
theorem test_decode_xorVxVy : decode 0b1000_0001_0010_0011 = .ok (.xorVxVy 1 2) := by decide
theorem test_decode_addVxVy : decode 0b1000_0000_0001_0100 = .ok (.addVxVy 0 1) := by decide
theorem test_decode_subVxVy : decode 0b1000_0000_0001_0101 = .ok (.subVxVy 0 1) := by decide
theorem test_decode_shrVxVy : decode 0b1000_0000_0001_0110 = .ok (.shrVxVy 0 1) := by decide
theorem test_decode_subnVxVy : decode 0b1000_0000_0001_0111 = .ok (.subnVxVy 0 1) := by decide
theorem test_decode_shlVxVy : decode 0b1000_0000_0001_1110 = .ok (.shlVxVy 0 1) := by decide
theorem test_decode_sneVxVy : decode 0b1001_0001_0010_0000 = .ok (.sneVxVy 1 2) := by decide
theorem test_decode_ldINnn : decode 0b1010_0011_0000_0000 = .ok (.ldINnn 0x300) := by decide
theorem test_decode_jpV0Nnn : decode 0b1011_0000_1111_1111 = .ok (.jpV0Nnn 0x0FF) := by decide
theorem test_decode_rndVxKk : decode 0b1100_0011_0000_1111 = .ok (.rndVxKk 3 0x0F) := by decide
theorem test_decode_drwVxVyN : decode 0b1101_0001_0010_0101 = .ok (.drwVxVyN 1 2 5) := by decide
theorem test_decode_skpVx : decode 0b1110_0101_1001_1110 = .ok (.skpVx 5) := by decide
theorem test_decode_sknpVx : decode 0b1110_0101_1010_0001 = .ok (.sknpVx 5) := by decide
theorem test_decode_ldVxDt : decode 0b1111_0011_0000_0111 = .ok (.ldVxDt 3) := by decide
theorem test_decode_ldVxK : decode 0b1111_0011_0000_1010 = .ok (.ldVxK 3) := by decide
theorem test_decode_ldDtVx : decode 0b1111_0100_0001_0101 = .ok (.ldDtVx 4) := by decide
theorem test_decode_ldStVx : decode 0b1111_0100_0001_1000 = .ok (.ldStVx 4) := by decide
theorem test_decode_addIVx : decode 0b1111_0000_0001_1110 = .ok (.addIVx 0) := by decide
theorem test_decode_ldFVx : decode 0b1111_0000_0010_1001 = .ok (.ldFVx 0) := by decide
theorem test_decode_ldBVx : decode 0b1111_0000_0011_0011 = .ok (.ldBVx 0) := by decide
theorem test_decode_ldMemIVx : decode 0b1111_0001_0101_0101 = .ok (.ldMemIVx 1) := by decide
theorem test_decode_ldVxMemI : decode 0b1111_0010_0110_0101 = .ok (.ldVxMemI 2) := by decide

/-- R82's own two examples. -/
theorem test_encode_examples : encode (.addVxVy 0 1) = 0x8014 ∧ encode (.drwVxVyN 1 2 5) = 0xD125 := by decide

theorem test_decode_table_word : decodeTableWord 16 0xF265 = some (.ldVxMemI 2) ∧ decodeTableWord 16 0x5121 = none := by
  decide

/-! ### Control transfer -/

/-- D1: VF is kept. -/
theorem test_cls : after ((withRegs [(15, 7)]).setDisp (Display.clear.flip 63 31)) 0x00E0
    (fun t => (litCount t.disp, t.reg 15, t.pc)) = some (0, 7, 0x202) := by decide
/-- F15. -/
theorem test_ret : after (stacked 16) 0x00EE (fun t => (t.sp, t.pc)) = some (15, 0x30F) := by decide
/-- F14. -/
theorem test_ret_underflow : after State.reset 0x00EE (fun t => (t.sp, t.pc, t.status)) =
    some (0, 0x200, .halted (.stackUnderflow 0x200 0x00EE)) := by decide
/-- R101's example. -/
theorem test_jp : after State.reset 0x1234 (fun t => t.pc) = some 0x234 := by decide
/-- F13. -/
theorem test_call : after (stacked 15) 0x2300 (fun t => (t.stack.get 15, t.sp, t.pc)) = some (0x202, 16, 0x300) := by
  decide
/-- F12. -/
theorem test_call_overflow : after (stacked 16) 0x2300 (fun t => (t.sp, t.pc, t.status, t.stack.get 15)) =
    some (16, 0x200, .halted (.stackOverflow 0x200 0x2300), 0x30F) := by decide
/-- F20, F21. -/
theorem test_se_imm : after (withRegs [(3, 0x10)]) 0x3310 (fun t => t.pc) = some 0x204 ∧
    after (withRegs [(3, 0x11)]) 0x3310 (fun t => t.pc) = some 0x202 := by decide
/-- F22. -/
theorem test_sne_imm : after (withRegs [(3, 0x10)]) 0x4310 (fun t => t.pc) = some 0x202 ∧
    after (withRegs [(3, 0x11)]) 0x4310 (fun t => t.pc) = some 0x204 := by decide
/-- F24. -/
theorem test_se_reg : after (withRegs [(1, 3)]) 0x5110 (fun t => t.pc) = some 0x204 ∧
    after (withRegs [(1, 3)]) 0x5120 (fun t => t.pc) = some 0x202 := by decide
/-- F25, F26. -/
theorem test_sne_reg : after (withRegs [(1, 3)]) 0x9110 (fun t => t.pc) = some 0x202 ∧
    after (withRegs [(1, 7), (2, 8)]) 0x9120 (fun t => t.pc) = some 0x204 := by decide
/-- F19: no mask. -/
theorem test_jp_v0 : after (withRegs [(0, 0xFF)]) 0xBFFF (fun t => t.pc) = some 0x10FE := by decide

/-! ### ALU; VF preset to 0x55 as the vectors say -/

/-- A1. -/
theorem test_ld_imm : after (withRegs [(15, 0x55)]) 0x6AFF (fun t => (t.reg 10, t.reg 15)) = some (0xFF, 0x55) := by
  decide
/-- A2. -/
theorem test_add_imm_wraps : after (withRegs [(0, 1), (15, 0x55)]) 0x70FF (fun t => (t.reg 0, t.reg 15)) =
    some (0x00, 0x55) := by decide
/-- A3. -/
theorem test_add_imm_vf : after (withRegs [(15, 2)]) 0x7FFF (fun t => t.reg 15) = some 1 := by decide
/-- A4. -/
theorem test_ld_reg : after (withRegs [(2, 0x33)]) 0x8120 (fun t => (t.reg 1, t.reg 2)) = some (0x33, 0x33) := by decide
/-- A5. -/
theorem test_or : after (withRegs [(1, 0xF0), (2, 0x0F), (15, 0x55)]) 0x8121 (fun t => (t.reg 1, t.reg 15)) =
    some (0xFF, 0x55) := by decide
/-- A6. -/
theorem test_and : after (withRegs [(15, 0xF0), (1, 0x3C)]) 0x8F12 (fun t => t.reg 15) = some 0x30 := by decide
/-- R127's example, A7. -/
theorem test_xor : after (withRegs [(0, 0xFF), (1, 0x0F)]) 0x8013 (fun t => t.reg 0) = some 0xF0 ∧
    after (withRegs [(1, 0x77)]) 0x8113 (fun t => t.reg 1) = some 0 := by decide
/-- W8, `8F14`: the carry wins over the sum. -/
theorem test_add_flag_wins : after (withRegs [(15, 0xFF), (1, 2)]) 0x8F14 (fun t => t.reg 15) = some 1 := by decide
/-- W8, `81F4`: the old VF is the addend. -/
theorem test_add_vf_operand : after (withRegs [(1, 0x10), (15, 1)]) 0x81F4 (fun t => (t.reg 1, t.reg 15)) =
    some (0x11, 0) := by decide
/-- W8, `8F15`. -/
theorem test_sub_flag_wins : after (withRegs [(15, 0x10), (1, 1)]) 0x8F15 (fun t => t.reg 15) = some 1 := by decide
/-- A12. -/
theorem test_sub_borrow : after (withRegs [(1, 1), (15, 0x55)]) 0x8015 (fun t => (t.reg 0, t.reg 15)) =
    some (0xFF, 0) := by decide
/-- W8, `8F06`. -/
theorem test_shr_flag_wins : after (withRegs [(15, 3)]) 0x8F06 (fun t => t.reg 15) = some 1 := by decide
/-- A21: SHIFT_SOURCE = VY. -/
theorem test_shr_vy : after ((shiftsVy.setV 0 4).setV 1 3) 0x8016 (fun t => (t.reg 0, t.reg 1, t.reg 15)) =
    some (1, 3, 1) := by decide
/-- W8, `8F17`. -/
theorem test_subn_flag_wins : after (withRegs [(15, 2), (1, 1)]) 0x8F17 (fun t => t.reg 15) = some 0 := by decide
/-- R131's example. -/
theorem test_subn : after (withRegs [(0, 3), (1, 5)]) 0x8017 (fun t => (t.reg 0, t.reg 15)) = some (2, 1) := by decide
/-- A20. -/
theorem test_shl : after (withRegs [(0, 0xFF), (15, 0x55)]) 0x801E (fun t => (t.reg 0, t.reg 15)) = some (0xFE, 1) := by
  decide
/-- A22: SHIFT_SOURCE = VY. -/
theorem test_shl_vy : after ((shiftsVy.setV 0 4).setV 1 0x81) 0x801E (fun t => (t.reg 0, t.reg 15)) = some (2, 1) := by
  decide
/-- A24: any draw under mask 0; the draw is a free value. -/
theorem test_rnd_mask_zero : after (withRegs [(3, 0x77)]) 0xC300 (fun t => t.reg 3) = some 0 := by
  show some (Config.randomDraw 0 &&& 0#8) = _
  simp
theorem test_rnd_counts : after State.reset 0xC3F0 (fun t => (t.draws, t.pc)) = some (1, 0x202) := by decide

/-! ### Address register, loads and stores -/

/-- M1. -/
theorem test_ld_i : after (State.reset.setI 0xFFFF) 0xA123 (fun t => t.I) = some 0x0123 := by decide
/-- M2, M3. -/
theorem test_add_i : after ((withRegs [(0, 1)]).setI 0xFFFF) 0xF01E (fun t => t.I) = some 0 ∧
    after ((withRegs [(0, 1)]).setI 0x0FFF) 0xF01E (fun t => t.I) = some 0x1000 := by decide
/-- M4, M6: no nibble mask. -/
theorem test_ld_f : after (withRegs [(0, 0x0A)]) 0xF029 (fun t => t.I) = some 0x32 ∧
    after (withRegs [(0, 0xFF)]) 0xF029 (fun t => t.I) = some 0x04FB := by decide
/-- M9. -/
theorem test_ld_b : after ((withRegs [(0, 0x9C)]).setI 0x300) 0xF033 (fun t => (bytesAt t 0x300 3, t.I)) =
    some ([1, 5, 6], 0x300) := by decide
/-- M12; M14, policy WRITE. -/
theorem test_ld_b_font : after ((withRegs [(0, 0x7B)]).setI 0x04E) 0xF033 (fun t => (bytesAt t 0x04E 3, t.pc, t.status)) =
    some ([0x80, 0x80, 0], 0x200, .halted (.fontWrite 0x200 0xF033 0x04E)) ∧
    after (((withPolicy .write).setV 0 0x7B).setI 0x04E) 0xF033 (fun t => bytesAt t 0x04E 3) = some [1, 2, 3] := by decide
/-- P11 under DROP: the stores pass 0xFFF and the byte at 0x000 is dropped. -/
theorem test_dump_drop : after (((((withPolicy .drop).setV 0 0x11).setV 1 0x22).setV 2 0x33).setI 0xFFE) 0xF255
    (fun t => (bytesAt t 0xFFE 3, t.pc)) = some ([0x11, 0x22, 0xF0], 0x202) := by decide
/-- M19. -/
theorem test_dump_font : after ((withRegs [(0, 0x11), (1, 0x22), (2, 0x33)]).setI 0xFFE) 0xF255
    (fun t => (bytesAt t 0xFFE 3, t.status)) = some ([0, 0, 0xF0], .halted (.fontWrite 0x200 0xF255 0x000)) := by decide
/-- M17. -/
theorem test_load_wraps : after (withBytes (State.reset.setI 0xFFF) 0xFFF [0xAB]) 0xF165
    (fun t => (t.reg 0, t.reg 1, t.reg 2, t.I)) = some (0xAB, 0xF0, 0, 0xFFF) := by decide
/-! ### Display -/

/-- D2: a wrapped glyph 0; 14 pixels. -/
theorem test_drw_wraps : after (withRegs [(1, 62), (2, 30)]) 0xD125 (fun t => (litCount t.disp, t.reg 15,
    allLit t.disp [(62, 30), (63, 30), (0, 30), (1, 30), (62, 31), (1, 31), (62, 0), (1, 0), (62, 1), (1, 1), (62, 2),
      (63, 2), (0, 2), (1, 2)])) = some (14, 0, true) := by decide
/-- W5: VF is the OR over the whole sprite. -/
theorem test_drw_collision_or : after (withBytes ((State.reset.setI 0x300).setDisp (Display.clear.flip 0 0)) 0x300
    [0x80, 0x40]) 0xD012 (fun t => (t.disp.pixel 0 0, t.disp.pixel 1 1, t.reg 15)) = some (false, true, 1) := by decide

/-! ### Keypad and timers -/

/-- K1, K5. -/
theorem test_skp : after ((withRegs [(5, 10)]).setKeys 0x0400) 0xE59E (fun t => t.pc) = some 0x204 ∧
    after ((withRegs [(5, 16)]).setKeys 1) 0xE59E (fun t => t.pc) = some 0x202 := by decide
/-- K3, K6. -/
theorem test_sknp : after ((withRegs [(5, 10)]).setKeys 0x0400) 0xE5A1 (fun t => t.pc) = some 0x202 ∧
    after (withRegs [(5, 16)]) 0xE5A1 (fun t => t.pc) = some 0x204 := by decide
/-- K13. -/
theorem test_ld_vx_dt : after (State.reset.setDT 0x20) 0xFF07 (fun t => t.reg 15) = some 0x20 := by decide
/-- K7. -/
theorem test_ld_vx_k : after (State.reset.setPc 0x20A) 0xF30A (fun t => (t.wait, t.pc)) = some (.awaiting 3, 0x20A) := by
  decide
/-- K14. -/
theorem test_ld_dt : after (withRegs [(4, 3)]) 0xF415 (fun t => t.DT) = some 3 := by decide
/-- K15: no cue. -/
theorem test_ld_st : after (State.reset.setST 5) 0xF018 (fun t => (t.ST, t.events)) = some (0, []) := by decide

/-- The core of K7, waiting at 0x20A. -/
def waiting : State := (State.reset.setPc 0x20A).setWait (.awaiting 3)

/-- K10. -/
theorem test_wait_ticks_then_key : afterAll ((waiting.setDT 5).setST 1) [.tick, .tick, .keyPress 2]
    (fun t => (t.DT, t.ST, t.events, t.reg 3, t.wait, t.pc)) = (3, 0, [.soundCue], 2, .none, 0x20C) := by decide
/-- K11. -/
theorem test_wait_stop : afterAll waiting [.stop] (fun t => (t.status, t.reg 3, t.pc)) =
    (.halted (.stopped 0x20A), 0, 0x20A) := by decide
/-- K9, K12. -/
theorem test_keys : afterAll waiting [.setKeys 0xFFFF] (fun t => (t.wait, t.pc, t.keys)) =
    (.awaiting 3, 0x20A, 0xFFFF) ∧ afterAll State.reset [.keyPress 4] (fun t => (t.reg 4, t.pc)) = (0, 0x200) := by decide
/-- W3 after its Step, K17, K19. -/
theorem test_tick : afterAll (State.reset.setST 1) [.tick, .tick] (fun t => (t.ST, t.events)) = (0, [.soundCue]) ∧
    afterAll ((State.reset.setDT 1).setST 2) [.tick] (fun t => (t.DT, t.ST, t.events)) = (0, 1, []) ∧
    afterAll (State.reset.setDT 0xFF) [.tick] (fun t => t.DT) = 0xFE := by decide

/-! ### Fetch, the step, the schedule, boot -/

/-- F1. -/
theorem test_fetch_last : after (State.reset.setPc 0xFFE) 0x00E0 (fun t => t.pc) = some 0x1000 := by decide
/-- F2. -/
theorem test_fetch_out : afterStep (State.reset.setPc 0xFFF) (fun t => (t.status, t.pc)) =
    some (.halted (.fetchOutOfBounds 0xFFF), 0xFFF) := by decide
/-- F4. -/
theorem test_fetch_odd : after (State.reset.setPc 0x201) 0x6007 (fun t => (t.reg 0, t.pc)) = some (7, 0x203) := by decide
/-- F5, from reset with nothing loaded. -/
theorem test_unknown : afterStep State.reset (fun t => (t.events, t.pc)) =
    some ([.unknownOpcode 0x200 0x0000], 0x202) := by decide
/-- R240, R243: a scheduled tick comes before the engine's Step. -/
theorem test_schedule : afterStep ((State.reset.setDT 5).setSchedule [.tick, .step]) (fun t => (t.DT, t.pc, t.schedule)) =
    some (4, 0x200, [.step]) := by decide
/-- K20. -/
theorem test_halted : step (stop State.reset) = .fault (.halted (.stopped 0x200)) := rfl
/-- W1's image loaded; P12. -/
theorem test_boot : bytesAt (boot defaultConfig (some [0x60, 0x05, 0x70, 0x03])) 0x200 5 = [0x60, 0x05, 0x70, 0x03, 0] ∧
    (boot defaultConfig (some [])).status = .halted .loadFailed := by
  simp only [boot, construct_default]
  decide
/-- R56, R57, D17: another FONT_DATA is preloaded at its own addresses, and nowhere else. -/
theorem test_construct_font : (construct { defaultConfig with fontData := Vector.replicate 80 0xAA }).mem.read 0x04F = 0xAA ∧
    (construct { defaultConfig with fontData := Vector.replicate 80 0xAA }).mem.read 0x050 = 0 :=
  ⟨(construct_read_font _ 0x04F (by decide)).trans (Vector.getElem_replicate _), construct_read_other _ 0x050 (by decide)⟩
/-- The canonical form: an unsorted list, and an entry equal to the reset contents, are refused. -/
theorem test_memory_form : Memory.wf [(0x300, 1), (0x200, 1)] = false ∧ Memory.wf [(0x300, 0)] = false ∧
    Memory.wf [(0x200, 1), (0x300, 1)] = true ∧ State.reset.mem.wf = true := by decide
/-- A write of what an unlisted address reads as removes the entry. -/
theorem test_memory_write_back : (Memory.write [(0x300, 5)] 0x300 0) = [] := by decide
/-- R241: "exceeds" is strictly greater, and the remainder is kept (rates 4 and 2, so periods 2 and 4). -/
theorem test_scheduler : (fun p : Accumulators × Run => (p.1, p.2.taken, p.2.core.pc, p.2.core.DT))
    (schedulerIteration 4 2 ⟨false, 5, [(3, none), (1, none)]⟩ ⟨0, 0⟩ (Run.start (State.reset.setDT 9))) =
    (⟨1, 1⟩, [.setKeys 3, .step, .setKeys 1, .step, .tick], 0x204, 8) := by decide
/-- R241: from zero accumulators, the remainders carry over an iteration, and the stop flag ends the loop. -/
theorem test_scheduler_run : (fun p : Accumulators × Run => (p.1, p.2.core.pc, p.2.core.DT, p.2.core.status))
    (schedulerRun 4 2 [⟨false, 5, []⟩, ⟨false, 4, []⟩, ⟨true, 9, []⟩, ⟨false, 9, []⟩] (State.reset.setDT 9)) =
    (⟨1, 1⟩, 0x208, 7, .halted (.stopped 0x208)) := by decide

/-! ### Witnesses: for every obligation with hypotheses, inputs that meet them, at the boundary values of each clause -/

/-- A store that starts past the font region and does not pass the end of memory is allowed. -/
theorem not_font_of_le {s : State} {n : Nat} (h : 0x050 ≤ s.I.toNat) (h' : s.I.toNat + n ≤ 4096) : s.storeAllowed n := by
  intro _ a ⟨r, hr, ha⟩
  rw [ha, Nat.mod_eq_of_lt (by omega)]
  omega

/-- The first byte past the image area is byte 3584, which is dropped; byte 3583 lands at 0xFFF. -/
theorem witness_LoaderCopiesImageOrHalts :
    (∃ (b : Byte) (bs : List Byte) (a : Addr) (j : Nat), 3584 < (b :: bs).length ∧ j < min (bs.length + 1) 3584 ∧
      a.toNat = 0x200 + j) ∧ (∃ image : Option (List Byte), image = none ∨ image = some []) :=
  ⟨⟨1, List.replicate 3584 1, 0xFFF, 3583,
      by rw [List.length_cons, List.length_replicate]; decide, by rw [List.length_replicate]; decide, by decide⟩, none, .inl rfl⟩

theorem witness_ResetStateValues : ∃ (c : Config) (a : Addr), c.fontData ≠ defaultConfig.fontData ∧ a.toNat = 0x04F ∧
    a.toNat < 80 :=
  ⟨{ defaultConfig with fontData := Vector.replicate 80 0xAA }, 0x04F,
    fun h => absurd (congrArg (fun v : Vector Byte 80 => v[0]) h) (by decide), rfl, by decide⟩

theorem witness_StepKeepsInvariant : ∃ s t, s.Inv ∧ step s = .next t :=
  ⟨State.reset, _, ⟨rfl, ⟨by decide, fun _ h => by cases h⟩,
    fun j => by simp [State.reset, Vector.get_eq_getElem], fun _ => reset_read_font⟩, rfl⟩

theorem witness_FontRegionIsNeverOverwritten : ∃ (s t : State) (a : Addr), step s = .next t ∧
    s.config.fontWritePolicy ≠ .write ∧ a.toNat < 0x050 ∧ a.toNat = 0x04F :=
  ⟨State.reset, _, 0x04F, rfl, by decide, by decide, rfl⟩

theorem witness_ParametersNeverChange : ∃ s t, s.config.shiftSource = .vy ∧ step s = .next t := ⟨shiftsVy, _, rfl, rfl⟩

theorem witness_CanonicalMemoryIsUnique : ∃ m m' : Memory, m ≠ [] ∧ m.wf = true ∧ m'.wf = true ∧
    ∀ a, m.read a = m'.read a := ⟨[(0x000, 1), (0xFFF, 5)], [(0x000, 1), (0xFFF, 5)], by decide, by decide, by decide, fun _ => rfl⟩

theorem witness_DecodeOfEncode : ∃ i : Instr, i.wellFormed = true := ⟨.drwVxVyN 15 15 15, by decide⟩

theorem witness_EncodeOfDecode : ∃ w i, decode w = .ok i := ⟨0xFF65, .ldVxMemI 15, by decide⟩

theorem witness_DecoderFollowsOpcodeMap : (∃ w, wordWellFormed w = true) ∧ (∃ w i, decode w = .ok i) ∧
    ∃ w, ∃ r ∈ opcodeMap, ∃ r' ∈ opcodeMap, r.holds w = true ∧ r'.holds w = true :=
  ⟨⟨0x8014, by decide⟩, ⟨0x00EE, .ret, by decide⟩, 0x9120, ⟨0xF00F, 0x9000⟩, by decide, ⟨0xF00F, 0x9000⟩, by decide,
    by decide, by decide⟩

/-- pc = 0x0FFE is the last address a fetch reads from, 0x0FFF the first where it halts. -/
theorem witness_FetchReadsBigEndianOrHalts :
    (∃ (s : State) (a b : Addr), s.pc = 0x0FFE ∧ a.toNat = s.pc.toNat ∧ b.toNat = s.pc.toNat + 1) ∧
    (∀ ts ∈ [[], [Transition.step, .tick]], ∃ s : State, s.pc = 0x0FFF ∧ s.status = .running ∧ s.wait = .none ∧
      s.schedule = ts ∧ s.pc.toNat + 1 > 0x0FFF) :=
  ⟨⟨State.reset.setPc 0x0FFE, 0xFFE, 0xFFF, rfl, by decide, by decide⟩,
    fun ts _ => ⟨(State.reset.setPc 0x0FFF).setSchedule ts, rfl, rfl, rfl, rfl,
      show (0x0FFF#16).toNat + 1 > 0x0FFF by decide⟩⟩

theorem witness_StepRunsDecodedInstruction : ∀ ts ∈ [[], [Transition.step, .tick]],
    ∃ (s : State) (a b : Addr) (i : Instr) (rest : List Byte), s.schedule = ts ∧ s.status = .running ∧ s.wait = .none ∧
      a.toNat = s.pc.toNat ∧ b.toNat = s.pc.toNat + 1 ∧ decodeBytes [s.mem.read a, s.mem.read b] = .ok (i, rest) ∧
      i.wellFormed = true := by
  intro ts h
  simp only [List.mem_cons, List.not_mem_nil, or_false] at h
  rcases h with rfl | rfl <;>
    exact ⟨(withBytes State.reset 0x200 [0x80, 0x14]).setSchedule _, 0x200, 0x201, .addVxVy 0 1, [], rfl, rfl, rfl,
      by decide, by decide, by decide, by decide⟩

theorem witness_UnknownOpcodeIsReportedNoOp : ∀ ts ∈ [[], [Transition.step, .tick]], ∃ (s : State) (w : Word),
    s.status = .running ∧ s.wait = .none ∧ s.schedule = ts ∧ fetch s = some w ∧ wordWellFormed w = false :=
  fun ts _ => ⟨State.reset.setSchedule ts, 0, rfl, rfl, rfl, show fetch State.reset = some 0 by decide, by decide⟩

theorem witness_PlacedWordRunsNext : ∃ (s : State) (w : Nat) (i : Instr), s.pc = 0x0FFF ∧ decodeTableWord 16 w = some i :=
  ⟨waiting.setPc 0x0FFF, 0xD125, .drwVxVyN 1 2 5, rfl, by decide⟩

/-- The lowest and the highest place a dump of all registers reaches without the font region and the end of memory. -/
theorem witness_StoredBytesAreFetched : ∀ base ∈ [0x050#16, 0x0FF0#16], ∃ (s : State) (x r r' : Reg), s.I = base ∧
    r'.val = r.val + 1 ∧ r' ≤ x ∧ 0x050 ≤ s.I.toNat ∧ s.I.toNat + x.val ≤ 0x0FFF := by
  intro base h
  simp only [List.mem_cons, List.not_mem_nil, or_false] at h
  rcases h with rfl | rfl <;> exact ⟨State.reset.setI _, 15, 14, 15, rfl, rfl, by decide, by decide, by decide⟩

theorem witness_RetPopsReturnAddress : (∃ (s : State) (j : Fin 16), j = 15 ∧ s.sp.val = j.val + 1) ∧
    (∃ (s : State) (j : Fin 16), j = 0 ∧ s.sp.val = j.val + 1) ∧ (∃ s : State, s.sp.val = 0) :=
  ⟨⟨stacked 16, 15, rfl, rfl⟩, ⟨stacked 1, 0, rfl, rfl⟩, State.reset, rfl⟩

theorem witness_CallPushesReturnAddress : (∃ (s : State) (j : Fin 16), j = 15 ∧ s.sp.val = j.val) ∧
    (∃ (s : State) (j : Fin 16), j = 0 ∧ s.sp.val = j.val) ∧ (∃ s : State, s.sp.val = 16) :=
  ⟨⟨stacked 15, 15, rfl, rfl⟩, ⟨State.reset, 0, rfl, rfl⟩, stacked 16, rfl⟩

theorem witness_CallThenRetReturnsAfterCall : ∃ s t u : State, s.sp.val = 15 ∧ s.sp.val < 16 ∧
    exec (.callNnn 0x300) s = .next t ∧ u.reg 0 ≠ t.reg 0 ∧ u.sp = t.sp ∧ u.stack = t.stack :=
  ⟨stacked 15, _, ((((stacked 15).push 0x202).getD State.reset).setPc 0x300).setV 0 1, rfl, by decide, rfl, by decide,
    by decide, by decide⟩

/-- x other than F and x = F; the sums 255 and 256. -/
theorem witness_AddWithCarry :
    (∃ (s : State) (x y : Reg), x ≠ flagReg ∧ (s.reg x).toNat + (s.reg y).toNat > 255) ∧
    (∃ (s : State) (x y : Reg), x = flagReg ∧ (s.reg x).toNat + (s.reg y).toNat = 255) :=
  ⟨⟨withRegs [(0, 0xFF), (1, 1)], 0, 1, by decide, by decide⟩, withRegs [(15, 0xFF)], 15, 1, rfl, by decide⟩

theorem witness_SubtractWithBorrowAvoided : ∃ (s : State) (x y : Reg), x ≠ flagReg ∧ (s.reg x).toNat = (s.reg y).toNat :=
  ⟨withRegs [(0, 5), (1, 5)], 0, 1, by decide, by decide⟩

theorem witness_ShiftsByOne : ∀ c ∈ [ShiftSource.vx, .vy], ∃ (s : State) (x y : Reg) (src : Byte),
    s.config.shiftSource = c ∧ x ≠ flagReg ∧ s.reg x ≠ s.reg y ∧
      src = (if s.config.shiftSource = .vx then s.reg x else s.reg y) := by
  intro c _
  refine ⟨({ State.reset with config := { defaultConfig with shiftSource := c } } : State).setV 0 4, 0, 1, _, rfl,
    by decide, by decide +revert, rfl⟩

theorem witness_OnlyDestinationsChange : ∃ (i : Instr) (s t : State) (r : Reg), exec i s = .next t ∧ t.reg r ≠ s.reg r :=
  ⟨.addVxVy 15 1, withRegs [(15, 0xFF), (1, 2)], _, 15, rfl, by decide⟩

/-- I = 0x050 is the first address three bytes are stored at under FAULT; I = 0x04F the last that halts; under DROP a
target at 0x04F is held back and one at 0x050 is not. -/
theorem witness_DecimalDigitsStored :
    (∃ s : State, s.I = 0x050 ∧ s.storeAllowed 3) ∧ (∃ s : State, s.I = 0x04F ∧ ¬ s.storeAllowed 3) ∧
    (∃ s : State, s.storeAllowed 3 ∧ (∃ a, isTargetAt s.I 0 a ∧ s.heldBack a) ∧ (∃ a, isTargetAt s.I 1 a ∧ ¬ s.heldBack a)) := by
  refine ⟨⟨State.reset.setI 0x050, rfl, not_font_of_le (by decide) (by decide)⟩, ⟨State.reset.setI 0x04F, rfl, ?_⟩,
    (withPolicy .drop).setI 0x04F, ?_, ⟨0x04F, by unfold isTargetAt; decide, by decide, by decide⟩, 0x050,
    by unfold isTargetAt; decide, fun h => absurd h.1 (by decide)⟩
  · intro h
    exact absurd (h rfl 0x04F ⟨0, by decide, by unfold isTargetAt; decide⟩) (by decide)
  · intro h
    cases h

/-- x = 0 and x = F; a dump that ends at 0xFFF, and one that passes it into the font region. -/
theorem witness_RegisterDumpStored :
    (∃ (s : State) (x : Reg), x = 15 ∧ s.I = 0x0FF0 ∧ s.storeAllowed (x.val + 1)) ∧
    (∃ (s : State) (x : Reg), x = 0 ∧ s.I = 0x050 ∧ s.storeAllowed (x.val + 1)) ∧
    (∃ (s : State) (x : Reg), x = 15 ∧ s.I = 0x0FF1 ∧ ¬ s.storeAllowed (x.val + 1)) := by
  refine ⟨⟨State.reset.setI 0x0FF0, 15, rfl, rfl, not_font_of_le (by decide) (by decide)⟩,
    ⟨State.reset.setI 0x050, 0, rfl, rfl, not_font_of_le (by decide) (by decide)⟩, State.reset.setI 0x0FF1, 15, rfl, rfl, ?_⟩
  intro h
  exact absurd (h rfl 0x000 ⟨15, by decide, by unfold isTargetAt; decide⟩) (by decide)

/-- The last register's address wraps to 0x000. -/
theorem witness_RegistersLoaded : ∃ (s : State) (x : Reg) (a : Addr) (r : Reg), r ≤ x ∧ a = 0x000 ∧ isTargetAt s.I r.val a :=
  ⟨State.reset.setI 0x0FF1, 15, 0x000, 15, by decide, rfl, by unfold isTargetAt; decide⟩

theorem witness_DumpThenLoadRoundTrip :
    (∃ (s u : State) (x : Reg), s.storeAllowed (x.val + 1) ∧
      ∃ t, exec (.ldMemIVx x) s = .next t ∧ u.I = t.I ∧ (∀ a, isTarget s.I (x.val + 1) a → u.mem.read a = t.mem.read a) ∧
        ∃ (a : Addr) (r : Reg), r ≤ x ∧ isTargetAt s.I r.val a ∧ ¬ s.heldBack a) ∧
    (∃ (s : State) (x : Reg) (a : Addr) (r : Reg), s.storeAllowed (x.val + 1) ∧ r ≤ x ∧ isTargetAt s.I r.val a ∧
      s.heldBack a) ∧
    (∃ (s : State) (x : Reg), ¬ s.storeAllowed (x.val + 1)) := by
  refine ⟨⟨State.reset.setI 0x050, _, 15, not_font_of_le (by decide) (by decide), _, rfl, rfl, fun _ _ => rfl, 0x05F, 15,
    by decide, by unfold isTargetAt; decide, fun h => absurd h.1 (by decide)⟩, ⟨(withPolicy .drop).setI 0x0FFF, 1, 0x000, 1,
    fun h => (by cases h), by decide, by unfold isTargetAt; decide, by decide, by decide⟩, State.reset, 0, ?_⟩
  intro h
  exact absurd (h rfl 0x000 ⟨0, by decide, by unfold isTargetAt; decide⟩) (by decide)

theorem witness_OnlyIndexInstructionsWriteI : ∃ (i : Instr) (s t : State), exec i s = .next t ∧ t.I ≠ s.I :=
  ⟨.ldINnn 0x300, State.reset, _, rfl, by decide⟩

theorem witness_OnlyStoresWriteMemory :
    (∃ (i : Instr) (s t : State) (a : Addr), exec i s = .next t ∧ t.mem.read a ≠ s.mem.read a) ∧
    (∃ (tr : Transition) (s t : State), tr ≠ .step ∧ takeTransition tr s = .next t) :=
  ⟨⟨.ldMemIVx 0, (withRegs [(0, 1)]).setI 0x300, _, 0x300, rfl, by decide⟩, .tick, State.reset, _, by decide, rfl⟩

/-- A sprite of one pixel: at I = 0x300, row 0x80, height 1, at (0, 0). -/
def onePixel (d : Display) : State := (withBytes (State.reset.setI 0x300) 0x300 [0x80]).setDisp d

theorem onePixel_covers (d : Display) : spriteCovers (onePixel d).mem (onePixel d).I 0 0 1 0 0 :=
  ⟨0, 0, by decide, by decide,
    by change ((onePixel Display.clear).mem.read (dataAddr (onePixel Display.clear).I 0)).getLsbD 7 = true; decide,
    by decide, by decide⟩

theorem witness_DrawSprite :
    (∃ (s : State) (x y : Reg) (n : Nibble), ∃ px py, spriteCovers s.mem s.I (s.reg x) (s.reg y) n.toNat px py ∧
      s.disp.pixel px py = true) ∧
    (∃ (s : State) (x y : Reg) (n : Nibble), (∃ px py, spriteCovers s.mem s.I (s.reg x) (s.reg y) n.toNat px py) ∧
      ∀ px py, spriteCovers s.mem s.I (s.reg x) (s.reg y) n.toNat px py → s.disp.pixel px py = false) :=
  ⟨⟨onePixel (Display.clear.flip 0 0), 0, 1, 1, 0, 0, onePixel_covers _, by decide⟩, onePixel Display.clear, 0, 1, 1,
    ⟨0, 0, onePixel_covers _⟩,
    fun px py _ => by
      change Display.clear.pixel px py = false
      simp [Display.clear, Display.pixel, Vector.get_eq_getElem]⟩

theorem witness_CollisionLaw : (∃ n : Nibble, 1 ≤ n.toNat) ∧ (∃ n : Nibble, n.toNat = 15 ∧ 1 ≤ n.toNat) ∧ (∃ n : Nibble, n = 0) :=
  ⟨⟨1, by decide⟩, ⟨15, by decide, by decide⟩, 0, rfl⟩

/-- The second draw collides (the pixel was unset), and does not (the one covered pixel was set). -/
theorem witness_DrawTwiceRestoresDisplay :
    (∃ (s : State) (x y : Reg) (n : Nibble), x ≠ flagReg ∧ y ≠ flagReg ∧
      ∃ px py, spriteCovers s.mem s.I (s.reg x) (s.reg y) n.toNat px py ∧ s.disp.pixel px py = false) ∧
    (∃ (s : State) (x y : Reg) (n : Nibble), x ≠ flagReg ∧ y ≠ flagReg ∧
      (∃ px py, spriteCovers s.mem s.I (s.reg x) (s.reg y) n.toNat px py) ∧
      ∀ px py, spriteCovers s.mem s.I (s.reg x) (s.reg y) n.toNat px py → s.disp.pixel px py = true) :=
  ⟨⟨onePixel Display.clear, 0, 1, 1, by decide, by decide, 0, 0, onePixel_covers _, by decide⟩,
    onePixel (Vector.replicate 32 (Vector.replicate 64 true)), 0, 1, 1, by decide, by decide, ⟨0, 0, onePixel_covers _⟩,
    fun px py _ => by
      change Display.pixel (Vector.replicate 32 (Vector.replicate 64 true)) px py = true
      simp [Display.pixel, Vector.get_eq_getElem]⟩

theorem witness_OnlyClsAndDrwWriteDisplay :
    (∃ (i : Instr) (s t : State), exec i s = .next t ∧ t.disp ≠ s.disp) ∧
    (∃ (tr : Transition) (s t : State), tr ≠ .step ∧ takeTransition tr s = .next t) :=
  ⟨⟨.cls, State.reset.setDisp (Display.clear.flip 0 0), _, rfl,
    fun h => absurd (congrArg (fun d => Display.pixel d 0 0) h) (by decide)⟩, .setKeys 1, State.reset, _, by decide, rfl⟩

/-- 15 is the last key, 16 the first index that names none. -/
theorem witness_KeySkips : (∃ (s : State) (x : Reg) (k : Key), k = 15 ∧ s.keys.getLsbD k.val = true ∧ (s.reg x).toNat = k.val) ∧
    (∃ (s : State) (x : Reg), (s.reg x).toNat = 16 ∧ 16 ≤ (s.reg x).toNat) :=
  ⟨⟨(withRegs [(0, 15)]).setKeys 0x8000, 0, 15, rfl, by decide, by decide⟩, withRegs [(0, 16)], 0, by decide, by decide⟩

theorem witness_KeyPressCompletesWait :
    (∃ (s : State) (k : Key) (ts : List Transition) (x : Reg), s.status = .running ∧ s.schedule = .keyPress k :: ts ∧
      s.wait = .awaiting x) ∧
    (∃ (s : State) (k : Key) (ts : List Transition), s.status = .running ∧ s.schedule = .keyPress k :: ts ∧
      s.wait = .none) :=
  ⟨⟨waiting.setSchedule [.keyPress 15], 15, [], 3, rfl, rfl, rfl⟩, State.reset.setSchedule [.keyPress 0], 0, [], rfl, rfl, rfl⟩

theorem witness_HaltsArePrecise : ∃ (i : Instr) (s t : State), exec i s = .next t ∧ t.status ≠ s.status :=
  ⟨.ret, State.reset, _, rfl, by decide⟩

/-- One for each reason. -/
theorem witness_HaltReasonsPerInstruction :
    (∃ s t : State, exec (.callNnn 0x300) s = .next t ∧ t.status ≠ s.status) ∧
    (∃ s t : State, exec .ret s = .next t ∧ t.status ≠ s.status) ∧
    (∃ s t : State, exec (.ldMemIVx 0) s = .next t ∧ t.status ≠ s.status) :=
  ⟨⟨stacked 16, _, rfl, by decide⟩, ⟨State.reset, _, rfl, by decide⟩, State.reset, _, rfl, by decide⟩

theorem witness_OnlyAHaltStopsTheMachine : (∃ (s : State) (r : HaltReason), s.status = .halted r) ∧
    (∃ s : State, s.status = .running) := ⟨⟨stop State.reset, .stopped 0x200, rfl⟩, State.reset, rfl⟩

theorem witness_OnlyCallAndRetTouchTheStack :
    (∃ (i : Instr) (s t : State), exec i s = .next t ∧ (t.sp ≠ s.sp ∨ t.stack ≠ s.stack)) ∧
    (∃ s t : State, s.sp.val = 16 ∧ exec .ret s = .next t) :=
  ⟨⟨.callNnn 0x300, State.reset, _, rfl, .inl (by decide)⟩, stacked 16, _, rfl, rfl⟩

theorem witness_GenericAdvance :
    (∃ (i : Instr) (s t : State), s.status = .running ∧ exec i s = .next t ∧ setsPcItself i = false ∧ t.status = .running) ∧
    (∃ (i : Instr) (s t : State), s.status = .running ∧ exec i s = .next t ∧ t.status ≠ .running) :=
  ⟨⟨.cls, State.reset, _, rfl, rfl, rfl, rfl⟩, .ldBVx 0, State.reset, _, rfl, rfl, by decide⟩

theorem witness_TickCountsDown : ∀ st ∈ [0#8, 1#8, 255#8], ∃ (s : State) (ts : List Transition), s.ST = st ∧
    s.status = .running ∧ s.schedule = .tick :: ts :=
  fun st _ => ⟨(waiting.setST st).setSchedule [.tick], [], rfl, rfl, rfl⟩

/-- One for each clause. -/
theorem witness_EventsOnlyFromTickAndUnknown : ∀ ts ∈ [[Transition.keyPress 1], [Transition.tick], []],
    ∃ s t : State, s.schedule = ts ∧ s.ST = 1 ∧ step s = .next t := by
  intro ts h
  simp only [List.mem_cons, List.not_mem_nil, or_false] at h
  rcases h with rfl | rfl | rfl <;> exact ⟨(State.reset.setST 1).setSchedule _, _, rfl, rfl, rfl⟩

theorem witness_SetKeysReplacesAllKeys : ∃ (s : State) (k16 : BitVec 16) (ts : List Transition), s.status = .running ∧
    s.schedule = .setKeys k16 :: ts := ⟨waiting.setSchedule [.setKeys 0x8001], 0x8001, [], rfl, rfl⟩

theorem witness_StopHaltsTheCore : ∃ (s : State) (ts : List Transition), s.status = .running ∧ s.schedule = .stop :: ts :=
  ⟨waiting.setSchedule [.stop, .tick], [.tick], rfl, rfl⟩

theorem witness_KeyWaitEndsOnlyByKeyPress :
    ∀ ts ∈ [[], [Transition.step], [Transition.tick], [Transition.stop], [Transition.keyPress 7]],
    ∃ (s t : State) (x : Reg), s.schedule = ts ∧ s.wait = .awaiting x ∧ step s = .next t := by
  intro ts h
  simp only [List.mem_cons, List.not_mem_nil, or_false] at h
  rcases h with rfl | rfl | rfl | rfl | rfl <;> exact ⟨waiting.setSchedule _, _, 3, rfl, rfl, rfl⟩

theorem witness_ReferenceSchedulerKeepsRemainders : ∃ (instrRate timerRate : Nat) (h : HostInput), 0 < instrRate ∧
    0 < timerRate ∧ h.stopFlag = false := ⟨500, 60, ⟨false, 7, []⟩, by decide, by decide, rfl⟩

theorem witness_ReferenceRunKeepsPaceUntilStop : ∃ (instrRate timerRate : Nat) (hs rest : List HostInput) (h : HostInput)
    (s : State) (a : Accumulators) (r : Run), 0 < instrRate ∧ 0 < timerRate ∧ hs ≠ [] ∧ (∀ h ∈ hs, h.stopFlag = false) ∧
      schedulerRun instrRate timerRate hs s = (a, r) ∧ h.stopFlag = true ∧ rest ≠ [] :=
  ⟨500, 60, [⟨false, 700, []⟩, ⟨false, 0, []⟩], [⟨false, 9, []⟩], ⟨true, 3, []⟩, State.reset, _, _, by decide, by decide,
    by decide, by decide, rfl, rfl, by decide⟩

end Sys2Proof.Tests
end

section
/-! What a transition leaves unchanged, composed from the named updates; and what each instruction may write
(10_state.md R21, R24, R28). -/

namespace Sys2Proof.Machine

/-! ### Frames of the named updates -/

theorem Part.kept_trans {p : Part} {s t u : State} (h : p.kept s t) (h' : p.kept t u) : p.kept s u := by
  cases p <;> exact Eq.trans h' h

theorem Frame.mono {c d : Part → Prop} {s t : State} (h : Frame c s t) (hcd : ∀ p, c p → d p) : Frame d s t :=
  fun p hp => h p (fun hc => hp (hcd p hc))

theorem Frame.trans {c : Part → Prop} {s t u : State} (h : Frame c s t) (h' : Frame c t u) : Frame c s u :=
  fun p hp => Part.kept_trans (h p hp) (h' p hp)

/-- One more update, of a single part that may change. -/
theorem Frame.thenPart {c : Part → Prop} {s t u : State} {q : Part} (h : Frame c s t)
    (h' : Frame (fun p => p = q) t u) (hq : c q) : Frame c s u :=
  h.trans (h'.mono (by rintro _ rfl; exact hq))

/-- An update of a single part that may change. -/
theorem Frame.ofPart {c : Part → Prop} {s t : State} {q : Part} (h : Frame (fun p => p = q) s t) (hq : c q) :
    Frame c s t :=
  h.mono (by rintro _ rfl; exact hq)

variable (s : State)

theorem frame_setV (x : Reg) (b : Byte) : Frame (fun p => p = .reg x) s (s.setV x b) := by
  intro p hp
  cases p with
  | reg y => exact (s.setV_reg x b y).trans (if_neg (fun e => hp (congrArg Part.reg e)))
  | _ => rfl

theorem frame_setI (a : Word) : Frame (fun p => p = .addressReg) s (s.setI a) := by
  intro p hp
  cases p with
  | addressReg => exact absurd rfl hp
  | _ => rfl

theorem frame_setPc (a : Word) : Frame (fun p => p = .pc) s (s.setPc a) := by
  intro p hp
  cases p with
  | pc => exact absurd rfl hp
  | _ => rfl

theorem frame_advance : Frame (fun p => p = .pc) s s.advance := frame_setPc s _

theorem frame_skipIf (c : Bool) : Frame (fun p => p = .pc) s (s.skipIf c) := by
  rw [State.skipIf_eq]
  exact frame_setPc s _

theorem frame_setDT (b : Byte) : Frame (fun p => p = .delayTimer) s (s.setDT b) := by
  intro p hp
  cases p with
  | delayTimer => exact absurd rfl hp
  | _ => rfl

theorem frame_setST (b : Byte) : Frame (fun p => p = .soundTimer) s (s.setST b) := by
  intro p hp
  cases p with
  | soundTimer => exact absurd rfl hp
  | _ => rfl

theorem frame_setWait (w : Wait) : Frame (fun p => p = .wait) s (s.setWait w) := by
  intro p hp
  cases p with
  | wait => exact absurd rfl hp
  | _ => rfl

theorem frame_countDraw : Frame (fun p => p = .draws) s s.countDraw := by
  intro p hp
  cases p with
  | draws => exact absurd rfl hp
  | _ => rfl

theorem frame_halt (r : HaltReason) : Frame (fun p => p = .status) s (s.halt r) := by
  intro p hp
  cases p with
  | status => exact absurd rfl hp
  | _ => rfl

theorem frame_setDisp (d : Display) : Frame (fun p => ∃ x y, p = .pixel x y) s (s.setDisp d) := by
  intro p hp
  cases p with
  | pixel x y => exact absurd ⟨x, y, rfl⟩ hp
  | _ => rfl

/-- The result and the flag (R121): the instruction's own register and VF. -/
theorem frame_writeResultThenFlag (x : Reg) (r : Byte) (f : Bool) :
    Frame (fun p => p = .reg x ∨ p = .reg flagReg) s (s.writeResultThenFlag x r f) :=
  (Frame.ofPart (frame_setV s x r) (Or.inl rfl)).thenPart (frame_setV _ flagReg _) (Or.inr rfl)

theorem frame_setRegs (v : Vector Byte 16) :
    Frame (fun p => ∃ r, v.get r ≠ s.reg r ∧ p = .reg r) s (s.setRegs v) := by
  intro p hp
  cases p with
  | reg y => exact not_not.1 (fun hne => hp ⟨y, hne, rfl⟩)
  | _ => rfl

/-- Pop lowers `sp`; the slots keep their values (R27, R28). -/
theorem frame_setStack_sp (sp : Fin 17) : Frame (fun p => p = .sp) s (s.setStack sp s.stack) := by
  intro p hp
  cases p with
  | sp => exact absurd rfl hp
  | _ => rfl

/-- Push changes `sp` and the slot it fills (R26). -/
theorem frame_setStack_set (sp : Fin 17) (j : Fin 16) (a : Word) :
    Frame (fun p => p = .sp ∨ p = .slot j) s (s.setStack sp (s.stack.set j a)) := by
  intro p hp
  cases p with
  | sp => exact absurd (Or.inl rfl) hp
  | slot k =>
    have hne : j.val ≠ k.val := fun e => hp (Or.inr (congrArg Part.slot (Fin.ext e.symm)))
    exact Vector.getElem_set_ne j.isLt k.isLt hne
  | _ => rfl

/-- A store of several bytes (R54, R55): it halts, or pc advances and the targets the policy does not hold back are
written. -/
theorem frame_storeBytes (w : Word) {bs : List Byte} (hl : bs.length ≤ 4096) :
    Frame (fun p => p = .status ∨ p = .pc ∨ ∃ a, (isTarget s.I bs.length a ∧ ¬ s.heldBack a) ∧ p = .byte a)
      s (s.storeBytes w bs) := by
  by_cases h : s.storeAllowed bs.length
  · obtain ⟨-, -, -, hframe⟩ := State.storeBytes_stores w hl h
    refine hframe.mono ?_
    rintro p (hp | ⟨a, ht, hb, hp⟩)
    · exact Or.inr (Or.inl hp)
    · exact Or.inr (Or.inr ⟨a, ⟨ht, hb⟩, hp⟩)
  · exact (State.storeBytes_halts w h).2.mono (fun _ hp => Or.inl hp)

/-! ### CALL and RET -/

/-- All RET can do (R100). -/
theorem exec_ret_cases :
    (s.sp.val = 0 ∧ exec .ret s = .next (s.halt (.stackUnderflow s.pc (encode .ret)))) ∨
      ∃ h : 0 < s.sp.val, exec .ret s =
        .next ((s.setStack ⟨s.sp.val - 1, by omega⟩ s.stack).setPc (s.stack[s.sp.val - 1]'(by omega))) := by
  rcases s.pop_cases with ⟨h, e⟩ | ⟨h, e⟩
  · exact Or.inl ⟨h, by simp only [exec, execRet, e]⟩
  · exact Or.inr ⟨h, by simp only [exec, execRet, e]⟩

/-- All CALL can do (R102). -/
theorem exec_callNnn_cases (nnn : Addr) :
    (s.sp.val = 16 ∧ exec (.callNnn nnn) s = .next (s.halt (.stackOverflow s.pc (encode (.callNnn nnn))))) ∨
      ∃ h : s.sp.val < 16, exec (.callNnn nnn) s =
        .next ((s.setStack ⟨s.sp.val + 1, by omega⟩ (s.stack.set s.sp.val (s.pc + 2) h)).setPc (addrImmediate nnn)) := by
  rcases s.push_cases (s.pc + 2) with ⟨h, e⟩ | ⟨h, e⟩
  · exact Or.inl ⟨h, by simp only [exec, execCallNnn, e]⟩
  · exact Or.inr ⟨h, by simp only [exec, execCallNnn, e]⟩

/-! ### What an instruction may write -/

/-- The instruction may change the part in state `s`: the writers of each part of the state, by the spec's whole-machine
rules (R21, R24, R28, R59, R174, R193, R222). -/
def mayWrite (s : State) (i : Instr) : Part → Prop
  | .reg r => namesDestination i r ∨ (writesFlag i = true ∧ r = flagReg)
  | .addressReg => (∃ nnn, i = .ldINnn nnn) ∨ (∃ x, i = .addIVx x) ∨ (∃ x, i = .ldFVx x)
  | .pc => ∀ x, i ≠ .ldVxK x
  | .sp => i = .ret ∨ ∃ nnn, i = .callNnn nnn
  | .slot j => (∃ nnn, i = .callNnn nnn) ∧ s.sp.val = j.val
  | .delayTimer => ∃ x, i = .ldDtVx x
  | .soundTimer => ∃ x, i = .ldStVx x
  | .pixel _ _ => i = .cls ∨ ∃ x y n, i = .drwVxVyN x y n
  | .wait => ∃ x, i = .ldVxK x
  | .status => i = .ret ∨ (∃ nnn, i = .callNnn nnn) ∨ (∃ x, i = .ldBVx x) ∨ (∃ x, i = .ldMemIVx x)
  | .byte a =>
    ((∃ x, i = .ldBVx x ∧ isTarget s.I 3 a) ∨ (∃ x : Reg, i = .ldMemIVx x ∧ isTarget s.I (x.val + 1) a)) ∧ ¬ s.heldBack a
  | .draws => ∃ x kk, i = .rndVxKk x kk
  | .key _ | .config | .schedule | .events => False

variable {s} {i : Instr} {t : State}

/-- Every instruction changes only the parts it may write. -/
theorem exec_frame (h : exec i s = .next t) : Frame (mayWrite s i) s t := by
  cases i
  case ldVxKk | addVxKk | ldVxVy | orVxVy | andVxVy | xorVxVy | ldVxDt =>
    cases h
    exact (Frame.ofPart (frame_setV s _ _) (Or.inl rfl)).thenPart (frame_advance _) nofun
  case addVxVy | subVxVy | shrVxVy | subnVxVy | shlVxVy =>
    cases h
    refine ((frame_writeResultThenFlag s _ _ _).mono ?_).thenPart (frame_advance _) nofun
    rintro _ (rfl | rfl)
    · exact Or.inl rfl
    · exact Or.inr ⟨rfl, rfl⟩
  case rndVxKk x kk =>
    cases h
    exact ((Frame.ofPart (frame_countDraw s) ⟨x, kk, rfl⟩).thenPart (frame_setV _ x _) (Or.inl rfl)).thenPart
      (frame_advance _) nofun
  case seVxKk | sneVxKk | seVxVy | sneVxVy | skpVx | sknpVx =>
    cases h
    exact Frame.ofPart (frame_skipIf s _) nofun
  case jpNnn | jpV0Nnn =>
    cases h
    exact Frame.ofPart (frame_setPc s _) nofun
  case ret =>
    rcases exec_ret_cases s with ⟨-, e⟩ | ⟨_, e⟩ <;> rw [e] at h <;> cases h
    · exact Frame.ofPart (frame_halt s _) (Or.inl rfl)
    · exact (Frame.ofPart (frame_setStack_sp s _) (Or.inl rfl)).thenPart (frame_setPc _ _) nofun
  case callNnn nnn =>
    rcases exec_callNnn_cases s nnn with ⟨-, e⟩ | ⟨hlt, e⟩ <;> rw [e] at h <;> cases h
    · exact Frame.ofPart (frame_halt s _) (Or.inr (Or.inl ⟨nnn, rfl⟩))
    · refine ((frame_setStack_set s _ ⟨s.sp.val, hlt⟩ _).mono ?_).thenPart (frame_setPc _ _) nofun
      rintro _ (rfl | rfl)
      · exact Or.inr ⟨nnn, rfl⟩
      · exact ⟨⟨nnn, rfl⟩, rfl⟩
  case ldINnn nnn =>
    cases h
    exact (Frame.ofPart (frame_setI s _) (Or.inl ⟨nnn, rfl⟩)).thenPart (frame_advance _) nofun
  case addIVx x =>
    cases h
    exact (Frame.ofPart (frame_setI s _) (Or.inr (Or.inl ⟨x, rfl⟩))).thenPart (frame_advance _) nofun
  case ldFVx x =>
    cases h
    exact (Frame.ofPart (frame_setI s _) (Or.inr (Or.inr ⟨x, rfl⟩))).thenPart (frame_advance _) nofun
  case cls =>
    cases h
    refine ((frame_setDisp s _).mono ?_).thenPart (frame_advance _) nofun
    rintro _ ⟨px, py, rfl⟩
    exact Or.inl rfl
  case drwVxVyN x y n =>
    cases h
    refine (((frame_setDisp s _).mono ?_).thenPart (frame_setV _ flagReg _) (Or.inr ⟨rfl, rfl⟩)).thenPart
      (frame_advance _) nofun
    rintro _ ⟨px, py, rfl⟩
    exact Or.inr ⟨x, y, n, rfl⟩
  case ldVxK x =>
    cases h
    exact Frame.ofPart (frame_setWait s _) ⟨x, rfl⟩
  case ldDtVx x =>
    cases h
    exact (Frame.ofPart (frame_setDT s _) ⟨x, rfl⟩).thenPart (frame_advance _) nofun
  case ldStVx x =>
    cases h
    exact (Frame.ofPart (frame_setST s _) ⟨x, rfl⟩).thenPart (frame_advance _) nofun
  case ldBVx x =>
    obtain rfl := Host.Outcome.next.inj h
    refine (frame_storeBytes s _ (by simp)).mono ?_
    rintro _ (rfl | rfl | ⟨a, ⟨ht, hb⟩, rfl⟩)
    · exact Or.inr (Or.inr (Or.inl ⟨x, rfl⟩))
    · exact nofun
    · exact ⟨Or.inl ⟨x, rfl, ht⟩, hb⟩
  case ldMemIVx x =>
    obtain rfl := Host.Outcome.next.inj h
    refine (frame_storeBytes s _ (by simp; omega)).mono ?_
    rintro _ (rfl | rfl | ⟨a, ⟨ht, hb⟩, rfl⟩)
    · exact Or.inr (Or.inr (Or.inr ⟨x, rfl⟩))
    · exact nofun
    · exact ⟨Or.inr ⟨x, rfl, dumpBytes_length s x ▸ ht⟩, hb⟩
  case ldVxMemI x =>
    obtain rfl := Host.Outcome.next.inj h
    refine ((frame_setRegs s _).mono ?_).thenPart (frame_advance _) nofun
    rintro _ ⟨r, hne, rfl⟩
    exact Or.inl (not_not.1 (fun hr => hne ((s.loadedRegs_get x r).trans (if_neg hr))))

/-! ### Only the named instructions write a part -/

/-- Settles O30: an instruction's frame, read at a register. -/
theorem onlyDestinationsChange : Obligations.OnlyDestinationsChange := by
  intro i s t r h hne
  exact not_not.1 (fun hr => hne (exec_frame h (.reg r) hr))

/-- Settles O36: an instruction's frame, read at I. -/
theorem onlyIndexInstructionsWriteI : Obligations.OnlyIndexInstructionsWriteI := by
  intro i s t h hne
  exact not_not.1 (fun hI => hne (exec_frame h .addressReg hI))

/-- Where no slot may be written, the whole stack is kept. -/
theorem exec_stack (h : exec i s = .next t) (hi : ∀ nnn, i ≠ .callNnn nnn) : t.stack = s.stack := by
  refine Vector.ext (fun j hj => exec_frame h (.slot ⟨j, hj⟩) ?_)
  rintro ⟨⟨nnn, e⟩, -⟩
  exact hi nnn e

/-- Settles O51: an instruction's frame, read at sp and at the slots. -/
theorem onlyCallAndRetTouchTheStack : Obligations.OnlyCallAndRetTouchTheStack := by
  refine ⟨fun i s t h hne => not_not.1 (fun hi => ?_), fun s t h => exec_stack h nofun⟩
  rcases hne with hsp | hstack
  · exact hsp (exec_frame h .sp hi)
  · exact hstack (exec_stack h (fun nnn e => hi (Or.inr ⟨nnn, e⟩)))

/-! ### The parameters -/

theorem engineStep_config (h : engineStep s = .next t) : t.config = s.config := by
  rcases engineStep_cases s with ⟨x, -, e⟩ | ⟨-, -, e⟩ | ⟨w, r, -, -, -, e⟩ | ⟨w, i, -, -, -, e⟩ <;> rw [e] at h
  · cases h; rfl
  · cases h; rfl
  · cases h; rfl
  · exact exec_frame h .config nofun

theorem tick_config : (tick s).config = s.config := by
  rw [tick_eq]
  split <;> rfl

theorem keyPress_config (k : Key) : (keyPress k s).config = s.config := by
  rcases keyPress_cases k s with ⟨-, e⟩ | ⟨x, -, e⟩ <;> rw [e]
  rfl

theorem takeTransition_config {tr : Transition} (h : takeTransition tr s = .next t) : t.config = s.config := by
  cases tr with
  | step => exact engineStep_config h
  | tick => cases h; exact tick_config
  | setKeys k16 => cases h; rfl
  | keyPress k => cases h; exact keyPress_config k
  | stop => cases h; rfl

/-- Settles O6: neither an instruction nor the environment writes the parameters. -/
theorem parametersNeverChange : Obligations.ParametersNeverChange := by
  intro s t h
  obtain ⟨-, ⟨-, he⟩ | ⟨tr, ts, -, ht⟩⟩ := step_cases h
  · exact engineStep_config he
  · exact takeTransition_config (s := s.setSchedule ts) ht

end Sys2Proof.Machine
end

section
/-! The invariant (10_state.md R23, R26; 20_memory.md R55): it holds at construction, each named update keeps it, and so
does every step. -/

namespace Sys2Proof.Machine

variable {s t : State}

/-! ### Updates that keep the invariant -/

/-- The invariant speaks of memory, the parameters, the stack, pc and the wait alone. -/
theorem State.Inv.congr (h : s.Inv) (hmem : t.mem = s.mem) (hconfig : t.config = s.config) (hstack : t.stack = s.stack)
    (hpc : t.pc = s.pc) (hwait : t.wait = s.wait) : t.Inv where
  memory := by rw [hmem]; exact h.memory
  pc := by rw [State.pcInRange, hpc, hwait]; exact h.pc
  stack := by rw [State.stackInRange, hstack]; exact h.stack
  font := by simp only [State.fontIntact, hmem, hconfig]; exact h.font

theorem State.Inv.halt (h : s.Inv) (r : HaltReason) : (s.halt r).Inv := h.congr rfl rfl rfl rfl rfl

/-- Whatever registers are loaded, an advance keeps the invariant (R155). -/
theorem State.Inv.setRegs_advance (h : s.advance.Inv) (v : Vector Byte 16) : (s.setRegs v).advance.Inv :=
  h.congr rfl rfl rfl rfl rfl

/-- Where no key is awaited, pc may move anywhere below 0x10FF. -/
theorem State.Inv.setPc (h : s.Inv) (hwait : s.wait = .none) {a : Word} (ha : a.toNat < 0x10FF) : (s.setPc a).Inv where
  memory := h.memory
  pc := ⟨ha, fun _ hx => nomatch hwait.symm.trans hx⟩
  stack := h.stack
  font := h.font

/-- The pc of a fetched instruction does not wrap when it advances or skips (R23, R52). -/
theorem pc_add_toNat {a b : Word} (ha : a.toNat ≤ 0x0FFE) (hb : b.toNat ≤ 4) : (a + b).toNat = a.toNat + b.toNat := by
  rw [BitVec.toNat_add]
  omega

theorem State.Inv.setPc_add (h : s.Inv) (hwait : s.wait = .none) (hpc : s.pc.toNat ≤ 0x0FFE) {b : Word}
    (hb : b.toNat ≤ 4) : (s.setPc (s.pc + b)).Inv := by
  refine h.setPc hwait ?_
  rw [pc_add_toNat hpc hb]
  omega

theorem State.Inv.advance (h : s.Inv) (hwait : s.wait = .none) (hpc : s.pc.toNat ≤ 0x0FFE) : s.advance.Inv :=
  h.setPc_add hwait hpc (by decide)

theorem State.Inv.skipIf (h : s.Inv) (hwait : s.wait = .none) (hpc : s.pc.toNat ≤ 0x0FFE) (c : Bool) :
    (s.skipIf c).Inv := by
  cases c with
  | false => exact h.advance hwait hpc
  | true => exact h.setPc_add hwait hpc (by decide)

/-- A wait starts and ends at the pc of a fetched instruction (R23). -/
theorem State.Inv.setWait (h : s.Inv) (hpc : s.pc.toNat ≤ 0x0FFE) (w : Wait) : (s.setWait w).Inv where
  memory := h.memory
  pc := ⟨h.pc.1, fun _ _ => hpc⟩
  stack := h.stack
  font := h.font

theorem State.Inv.setStack (h : s.Inv) (sp : Fin 17) {stack : Vector Word 16}
    (hstack : ∀ j, (stack.get j).toNat ≤ 0x1000) : (s.setStack sp stack).Inv where
  memory := h.memory
  pc := h.pc
  stack := hstack
  font := h.font

/-- A store under the machine's own policy keeps memory canonical and the font as it is (R55). -/
theorem State.Inv.setMem_storeRun (h : s.Inv) (bs : List Byte) :
    (s.setMem (s.mem.storeRun s.config.fontWritePolicy s.I 0 bs)).Inv where
  memory := Memory.storeRun_wf h.memory _ _ _ _
  pc := h.pc
  stack := h.stack
  font := fun hp a ha =>
    (Memory.storeRun_read_font hp s.mem s.I 0 bs (inFont_eq_true.2 ha)).trans (h.font hp a ha)

theorem State.Inv.storeBytes (h : s.Inv) (hwait : s.wait = .none) (hpc : s.pc.toNat ≤ 0x0FFE) (w : Word)
    (bs : List Byte) : (s.storeBytes w bs).Inv := by
  rcases s.storeBytes_cases w bs with ⟨-, a, -, e⟩ | ⟨-, e⟩ <;> rw [e]
  · exact h.halt _
  · exact (h.setMem_storeRun bs).advance hwait hpc

/-- Filling one slot with a value in range keeps the stack in range (R102). -/
theorem State.stackInRange_set (h : s.stackInRange) {a : Word} (ha : a.toNat ≤ 0x1000) {n : Nat} (hn : n < 16)
    (j : Fin 16) : ((s.stack.set n a hn).get j).toNat ≤ 0x1000 := by
  rw [Vector.get_eq_getElem, Vector.getElem_set]
  split
  · exact ha
  · exact h j

/-! ### Every transition keeps the invariant -/

/-- A fetched instruction keeps the invariant. -/
theorem exec_keeps_inv {i : Instr} (hinv : s.Inv) (hwait : s.wait = .none) (hpc : s.pc.toNat ≤ 0x0FFE)
    (h : exec i s = .next t) : t.Inv := by
  cases i
  case ret =>
    rcases exec_ret_cases s with ⟨-, e⟩ | ⟨hpos, e⟩ <;> rw [e] at h <;> cases h
    · exact hinv.halt _
    · refine (hinv.setStack ⟨s.sp.val - 1, by omega⟩ hinv.stack).setPc hwait ?_
      exact Nat.lt_of_le_of_lt (hinv.stack ⟨s.sp.val - 1, by omega⟩) (by decide)
  case callNnn nnn =>
    rcases exec_callNnn_cases s nnn with ⟨-, e⟩ | ⟨hlt, e⟩ <;> rw [e] at h <;> cases h
    · exact hinv.halt _
    · have hret : (s.pc + 2).toNat ≤ 0x1000 := by
        rw [pc_add_toNat hpc (by decide)]
        exact Nat.add_le_add_right hpc _
      refine (hinv.setStack _ (State.stackInRange_set hinv.stack hret hlt)).setPc hwait ?_
      rw [addrImmediate_toNat]
      omega
  case jpNnn nnn =>
    cases h
    refine hinv.setPc hwait ?_
    rw [addrImmediate_toNat]
    omega
  case jpV0Nnn nnn =>
    cases h
    refine hinv.setPc hwait ?_
    rw [jumpOffsetTarget_toNat]
    omega
  case seVxKk | sneVxKk | seVxVy | sneVxVy | skpVx | sknpVx =>
    cases h
    exact hinv.skipIf hwait hpc _
  case ldVxK =>
    cases h
    exact hinv.setWait hpc _
  case ldBVx | ldMemIVx =>
    obtain rfl := Host.Outcome.next.inj h
    exact hinv.storeBytes hwait hpc _ _
  case ldVxMemI =>
    obtain rfl := Host.Outcome.next.inj h
    exact (hinv.advance hwait hpc).setRegs_advance _
  -- every other instruction writes parts the invariant does not speak of, and advances
  all_goals
    cases h
    exact (hinv.advance hwait hpc).congr rfl rfl rfl rfl rfl

theorem engineStep_keeps_inv (hinv : s.Inv) (h : engineStep s = .next t) : t.Inv := by
  rcases engineStep_cases s with ⟨x, -, e⟩ | ⟨-, -, e⟩ | ⟨w, r, hwait, hf, -, e⟩ | ⟨w, i, hwait, hf, -, e⟩ <;>
    rw [e] at h
  · cases h; exact hinv
  · cases h; exact hinv.halt _
  · cases h; exact (hinv.advance hwait (fetch_some hf)).congr rfl rfl rfl rfl rfl
  · exact exec_keeps_inv hinv hwait (fetch_some hf) h

theorem tick_keeps_inv (hinv : s.Inv) : (tick s).Inv := by
  rw [tick_eq]
  split <;> exact hinv.congr rfl rfl rfl rfl rfl

/-- The key press that ends a wait advances from a pc of at most 0x0FFE (R23, R196). -/
theorem keyPress_keeps_inv (hinv : s.Inv) (k : Key) : (keyPress k s).Inv := by
  rcases keyPress_cases k s with ⟨-, e⟩ | ⟨x, hx, e⟩ <;> rw [e]
  · exact hinv
  · obtain ⟨-, hwaitPc⟩ := hinv.pc
    have hpc : s.pc.toNat ≤ 0x0FFE := hwaitPc x hx
    exact ((hinv.setWait hpc .none).advance rfl hpc).congr rfl rfl rfl rfl rfl

theorem takeTransition_keeps_inv {tr : Transition} (hinv : s.Inv) (h : takeTransition tr s = .next t) : t.Inv := by
  cases tr with
  | step => exact engineStep_keeps_inv hinv h
  | tick => cases h; exact tick_keeps_inv hinv
  | setKeys k16 => cases h; exact hinv.congr rfl rfl rfl rfl rfl
  | keyPress k => cases h; exact keyPress_keeps_inv hinv k
  | stop => cases h; exact hinv.halt _

/-- Settles O4: an engine Step or the oldest scheduled transition, each keeps the invariant. -/
theorem stepKeepsInvariant : Obligations.StepKeepsInvariant := by
  intro s t hinv h
  obtain ⟨-, ⟨-, he⟩ | ⟨tr, ts, -, ht⟩⟩ := step_cases h
  · exact engineStep_keeps_inv hinv he
  · exact takeTransition_keeps_inv (s := s.setSchedule ts) (hinv.congr rfl rfl rfl rfl rfl) ht

/-! ### Construction -/

/-- The machine constructed with any parameters meets the invariant. -/
theorem construct_inv (c : Config) : (construct c).Inv where
  memory := construct_mem_wf c
  pc := ⟨(by decide : State.reset.pc.toNat < 0x10FF), nofun⟩
  stack := fun j => by simp [construct, State.reset, Vector.get_eq_getElem]
  font := fun _ => construct_read_font c

/-- Settles O3: reset is the construction with the default parameters. -/
theorem resetMeetsInvariant : Obligations.ResetMeetsInvariant :=
  ⟨construct_default ▸ construct_inv defaultConfig, construct_inv⟩

/-- Memory at reset (R57): zero from 0x050 on. -/
theorem reset_read_other (a : Addr) (h : 80 ≤ a.toNat) : State.reset.mem.read a = 0 := by
  rw [← construct_default]
  exact construct_read_other defaultConfig a h

/-- Memory at reset (R56, R57): the default font below 0x050, zero from there on. -/
theorem reset_read (a : Addr) :
    State.reset.mem.read a = if a.toNat < 0x050 then defaultFont.getD a.toNat 0 else 0 := by
  split
  · exact Memory.read_nil a
  · exact reset_read_other a (by omega)

/-- Construction with other parameters differs from reset in them and in the font region alone (R57, R261). -/
theorem construct_frame (c : Config) :
    Frame (fun p => p = .config ∨ ∃ a, a.toNat < 0x050 ∧ p = .byte a) State.reset (construct c) := by
  intro p hp
  cases p with
  | config => exact absurd (Or.inl rfl) hp
  | byte a =>
    have ha : 80 ≤ a.toNat := not_lt.1 (fun hlt => hp (Or.inr ⟨a, hlt, rfl⟩))
    exact (construct_read_other c a ha).trans (reset_read_other a ha).symm
  | _ => rfl

/-- Settles O1: the fields of `State.reset` one by one, then construction with any parameters. -/
theorem resetStateValues : Obligations.ResetStateValues := by
  refine ⟨fun x => ?_, rfl, rfl, rfl, fun j => ?_, rfl, rfl, Display.clear_pixel, fun k => ?_, rfl, rfl, reset_read,
    construct_default, fun c => ⟨rfl, construct_read_font c, construct_frame c⟩⟩
  · exact Vector.getElem_replicate x.isLt
  · exact Vector.getElem_replicate j.isLt
  · exact BitVec.getLsbD_zero

end Sys2Proof.Machine
end

section
/-! Memory: who writes it, the font region no step writes, and the fetch that reads it (20_memory.md R52, R55, R59, R61,
R63). -/

namespace Sys2Proof.Machine

variable {s t : State}

/-! ### Fetching -/

/-- Where pc and pc + 1 are addresses of memory, they are what a fetch reads (R52). -/
theorem fetch_of_addrs {a b : Addr} (ha : a.toNat = s.pc.toNat) (hb : b.toNat = s.pc.toNat + 1) :
    fetch s = some (wordOfBytes (s.mem.read a) (s.mem.read b)) := by
  rw [fetch_eq (by omega), ← hb, ← ha]
  simp only [BitVec.ofNat_toNat, BitVec.setWidth_eq]

/-- Past the last word of memory the engine's Step halts (R52, R222). -/
theorem engineStep_fetchOutOfBounds (hwait : s.wait = .none) (hpc : 0x0FFE < s.pc.toNat) :
    engineStep s = .next (s.halt (.fetchOutOfBounds s.pc)) := by
  simp only [engineStep, hwait, fetch_none.2 hpc]

theorem frame_setSchedule (s : State) (ts : List Transition) : Frame (fun p => p = .schedule) s (s.setSchedule ts) := by
  intro p hp
  cases p with
  | schedule => exact absurd rfl hp
  | _ => rfl

/-- Settles O13: the two bytes at pc are the word, and past the end of memory the engine's Step halts, whether it is the
Step of an empty schedule or a scheduled one. -/
theorem fetchReadsBigEndianOrHalts : Obligations.FetchReadsBigEndianOrHalts := by
  refine ⟨fun s a b ha hb => ⟨_, fetch_of_addrs ha hb, wordOfBytes_toNat _ _⟩, fun s hrun hwait hpc => ⟨?_, ?_⟩⟩
  · intro hq
    have hstep : step s = engineStep s := by rw [step_running hrun, hq]
    exact ⟨_, hstep.trans (engineStep_fetchOutOfBounds hwait (by omega)), rfl, frame_halt s _⟩
  · intro ts hq
    have hstep : step s = engineStep (s.setSchedule ts) := by rw [step_running hrun, hq]; rfl
    refine ⟨_, hstep.trans (engineStep_fetchOutOfBounds (s := s.setSchedule ts) hwait ?_), rfl, rfl, ?_⟩
    · rw [State.setSchedule_pc]
      omega
    · exact (Frame.ofPart (frame_setSchedule s ts) (Or.inr rfl)).thenPart (frame_halt _ _) (Or.inl rfl)

/-! ### Fetching what a register dump stored -/

/-- No target of a store that starts past the font region and does not wrap lies in the font region (R54, R55). -/
theorem State.storeAllowed_of_noWrap {n : Nat} (hlo : 0x050 ≤ s.I.toNat) (hhi : s.I.toNat + n ≤ 4096) :
    s.storeAllowed n := by
  rintro - a ⟨r, hr, ha⟩
  rw [isTargetAt] at ha
  omega

/-- Past the font region the policy holds nothing back (R55). -/
theorem State.not_heldBack_of_le {a : Addr} (h : 0x050 ≤ a.toNat) : ¬ s.heldBack a := fun hb => not_lt.2 h hb.1

/-- A register dump past the font region leaves V[r] at I + r (R154). -/
theorem dump_read {x r : Reg} (w : Word) (hr : r ≤ x) (hlo : 0x050 ≤ s.I.toNat) (hhi : s.I.toNat + x.val ≤ 0x0FFF)
    {a : Addr} (ha : a.toNat = s.I.toNat + r.val) : (s.storeBytes w (dumpBytes s x)).mem.read a = s.reg r := by
  have hlen : (dumpBytes s x).length = x.val + 1 := dumpBytes_length s x
  have hlt : r.val < (dumpBytes s x).length := hlen ▸ Nat.lt_succ_of_le hr
  obtain ⟨-, hstored, -, -⟩ := State.storeBytes_stores w (bs := dumpBytes s x) (by omega)
    (State.storeAllowed_of_noWrap hlo (by omega))
  have ht : isTargetAt s.I r.val a := by rw [isTargetAt]; omega
  rw [hstored a r.val hlt ht (State.not_heldBack_of_le (by omega)), dumpBytes_getElem]

/-- Settles O17: the dump leaves V[r] and V[r+1] at the two addresses the fetch reads. -/
theorem storedBytesAreFetched : Obligations.StoredBytesAreFetched := by
  intro s x r r' hr' hx hlo hhi
  have hr : r < r' := Fin.lt_def.2 (by omega)
  have hx' : r'.val ≤ x.val := Fin.le_def.1 hx
  have hpc : (s.I + BitVec.ofNat 16 r.val).toNat = s.I.toNat + r.val := by
    rw [BitVec.toNat_add, BitVec.toNat_ofNat]
    omega
  have ha : (BitVec.ofNat 12 (s.I.toNat + r.val)).toNat = s.I.toNat + r.val := Nat.mod_eq_of_lt (by omega)
  have hb : (BitVec.ofNat 12 (s.I.toNat + r'.val)).toNat = s.I.toNat + r'.val := Nat.mod_eq_of_lt (by omega)
  refine ⟨_, _, rfl, fetch_of_addrs (ha.trans hpc.symm) (hb.trans ?_), ?_⟩
  · rw [State.setPc_pc, hpc, hr', Nat.add_assoc]
  · rw [wordOfBytes_toNat, State.setPc_mem, dump_read _ (hr.le.trans hx) hlo hhi ha, dump_read _ hx hlo hhi hb]

/-! ### Who writes memory -/

theorem tick_mem (s : State) : (tick s).mem = s.mem := by
  rw [tick_eq]
  split <;> rfl

theorem keyPress_mem (k : Key) (s : State) : (keyPress k s).mem = s.mem := by
  rcases keyPress_cases k s with ⟨-, e⟩ | ⟨x, -, e⟩ <;> rw [e]
  rfl

/-- The environment never writes memory (R61). -/
theorem takeTransition_mem {tr : Transition} (hne : tr ≠ .step) (h : takeTransition tr s = .next t) :
    t.mem = s.mem := by
  cases tr with
  | step => exact absurd rfl hne
  | tick => cases h; exact tick_mem s
  | setKeys k16 => cases h; rfl
  | keyPress k => cases h; exact keyPress_mem k s
  | stop => cases h; rfl

/-- Settles O37: an instruction's frame, read at a byte of memory; and the environment's transitions one by one. -/
theorem onlyStoresWriteMemory : Obligations.OnlyStoresWriteMemory := by
  refine ⟨fun i s t a h hne => not_not.1 (fun hi => hne (exec_frame h (.byte a) ?_)), fun tr s t => takeTransition_mem⟩
  rintro ⟨htarget, -⟩
  exact hi htarget

/-! ### The font region -/

/-- No instruction changes a byte the font policy holds back (R55). -/
theorem exec_heldBack {i : Instr} {a : Addr} (ha : s.heldBack a) (h : exec i s = .next t) :
    t.mem.read a = s.mem.read a := by
  refine exec_frame h (.byte a) ?_
  rintro ⟨-, hnot⟩
  exact hnot ha

theorem engineStep_heldBack {a : Addr} (ha : s.heldBack a) (h : engineStep s = .next t) :
    t.mem.read a = s.mem.read a := by
  rcases engineStep_cases s with ⟨x, -, e⟩ | ⟨-, -, e⟩ | ⟨w, r, -, -, -, e⟩ | ⟨w, i, -, -, -, e⟩ <;> rw [e] at h
  · cases h; rfl
  · cases h; rfl
  · cases h; rfl
  · exact exec_heldBack ha h

theorem takeTransition_heldBack {tr : Transition} {a : Addr} (ha : s.heldBack a) (h : takeTransition tr s = .next t) :
    t.mem.read a = s.mem.read a := by
  by_cases htr : tr = .step
  · subst htr
    exact engineStep_heldBack ha h
  · rw [takeTransition_mem htr h]

/-- Settles O5: below 0x050 the policy holds every byte back, and neither the engine's Step nor a scheduled transition
changes such a byte. -/
theorem fontRegionIsNeverOverwritten : Obligations.FontRegionIsNeverOverwritten := by
  intro s t a h hp ha
  have hheld : s.heldBack a := ⟨ha, hp⟩
  obtain ⟨-, ⟨-, he⟩ | ⟨tr, ts, -, ht⟩⟩ := step_cases h
  · exact engineStep_heldBack hheld he
  · exact takeTransition_heldBack (s := s.setSchedule ts) hheld ht

end Sys2Proof.Machine
end

section
/-! The encoding (30_encoding.md R73, R74, R75, R81, R82): decoding and encoding are inverse, a row of the opcode map
holds exactly the words its instructions encode to, and the words no instruction encodes to, family by family. -/

namespace Sys2Proof

variable {w : Word} {op : Nibble} {i : Instr}

/-! ### The word of a decoded instruction -/

/-- R82: the fields of an encoded word are the operands it was built from, and they select the instruction again. -/
theorem decode_encode (i : Instr) : decode (encode i) = .ok i := by
  cases i
  case cls | ret => rfl
  case ldVxVy | orVxVy | andVxVy | xorVxVy | addVxVy | subVxVy | shrVxVy | subnVxVy | shlVxVy =>
    simp [encode, decode, decode8]
  case skpVx | sknpVx => simp [encode, decode, decodeE]
  case ldVxDt | ldVxK | ldDtVx | ldStVx | addIVx | ldFVx | ldBVx | ldMemIVx | ldVxMemI => simp [encode, decode, decodeF]
  -- the other instructions have a family of their own
  all_goals simp [encode, decode]

/-- Settles O8: every instruction, well formed or not. -/
theorem decodeOfEncode : Obligations.DecodeOfEncode := fun i _ => decode_encode i

theorem encode_of_decode0 (h : decode0 w = .ok i) : encode i = w := by
  unfold decode0 at h
  split at h
  · next hw => cases h; exact hw.symm
  · split at h
    · next hw => cases h; exact hw.symm
    · cases h

theorem encode_of_decode8 {x y : Reg} {n : Nibble} (h : decode8 x y n = .ok i) : encode i = encXyn 0x8#4 x y n := by
  unfold decode8 at h
  split at h <;> cases h <;> rfl

theorem encode_of_decodeE {x : Reg} {kk : Byte} (h : decodeE x kk = .ok i) : encode i = encXkk 0xE#4 x kk := by
  unfold decodeE at h
  split at h <;> cases h <;> rfl

theorem encode_of_decodeF {x : Reg} {kk : Byte} (h : decodeF x kk = .ok i) : encode i = encXkk 0xF#4 x kk := by
  unfold decodeF at h
  split at h <;> cases h <;> rfl

theorem encNnn_of_fieldOp (h : fieldOp w = op) : encNnn op (fieldNnn w) = w := h ▸ encNnn_fields w

theorem encXkk_of_fieldOp (h : fieldOp w = op) : encXkk op (fieldX w) (fieldKk w) = w := h ▸ encXkk_fields w

theorem encXyn_of_fieldOp (h : fieldOp w = op) : encXyn op (fieldX w) (fieldY w) (fieldN w) = w := h ▸ encXyn_fields w

/-- The last family of `decode`'s match is F (R71). -/
theorem eq_F_of_ne (n : Nibble) : n ≠ 0x0#4 → n ≠ 0x1#4 → n ≠ 0x2#4 → n ≠ 0x3#4 → n ≠ 0x4#4 → n ≠ 0x5#4 → n ≠ 0x6#4 →
    n ≠ 0x7#4 → n ≠ 0x8#4 → n ≠ 0x9#4 → n ≠ 0xA#4 → n ≠ 0xB#4 → n ≠ 0xC#4 → n ≠ 0xD#4 → n ≠ 0xE#4 → n = 0xF#4 := by
  intros
  bv_omega

/-- R81: the fields of a decoded word are its instruction's operands, and a word is its fields. -/
theorem encode_of_decode (h : decode w = .ok i) : encode i = w := by
  unfold decode at h
  split at h
  -- families 0 and F, then 8 and E, which have a decoder of their own
  case h_1 => exact encode_of_decode0 h
  case h_16 =>
    have hop : fieldOp w = 0xF#4 := by apply eq_F_of_ne <;> assumption
    exact (encode_of_decodeF h).trans (encXkk_of_fieldOp hop)
  all_goals rename_i hop
  case h_9 => exact (encode_of_decode8 h).trans (encXyn_of_fieldOp hop)
  case h_15 => exact (encode_of_decodeE h).trans (encXkk_of_fieldOp hop)
  -- families 5 and 9, whose low nibble is 0
  case h_6 | h_10 =>
    split at h
    · next hn =>
      cases h
      exact (congrArg (encXyn _ _ _) hn.symm).trans (encXyn_of_fieldOp hop)
    · cases h
  -- the families of one instruction: formats NNN, XYN and XKK (R73)
  all_goals cases h
  case h_2 | h_3 | h_11 | h_12 => exact encNnn_of_fieldOp hop
  case h_14 => exact encXyn_of_fieldOp hop
  all_goals exact encXkk_of_fieldOp hop

/-- Settles O9: each family's words are the encodings of its instructions. -/
theorem encodeOfDecode : Obligations.EncodeOfDecode := fun _ _ => encode_of_decode

/-! ### The rows of the opcode map -/

/-- The word of an instruction lies in the instruction's own row. -/
theorem encode_in_row (i : Instr) : encode i &&& (rowOf i).mask = (rowOf i).pattern := eq_of_beq (wellFormed_all i)

theorem rowOf_mem_opcodeMap (i : Instr) : rowOf i ∈ opcodeMap := by
  cases i <;> simp [opcodeMap, rowOf]

theorem exists_rowOf_of_mem {r : OpcodeRow} (h : r ∈ opcodeMap) : ∃ j, rowOf j = r := by
  simp only [opcodeMap, List.mem_append, List.mem_map] at h
  rcases h with ((⟨j, -, hj⟩ | ⟨j, -, hj⟩) | ⟨j, -, hj⟩) | ⟨j, -, hj⟩ <;> exact ⟨j, hj⟩

/-! A masked word keeps the fields the mask covers (R74). -/

theorem fieldOp_and_F000 (w : Word) : fieldOp (w &&& 0xF000#16) = fieldOp w := by
  rw [← encNnn_fields w, encNnn_and_F000]
  simp

theorem fieldOp_and_F00F (w : Word) : fieldOp (w &&& 0xF00F#16) = fieldOp w := by
  rw [← encXyn_fields w, encXyn_and_F00F]
  simp

theorem fieldN_and_F00F (w : Word) : fieldN (w &&& 0xF00F#16) = fieldN w := by
  rw [← encXyn_fields w, encXyn_and_F00F]
  simp

theorem fieldOp_and_F0FF (w : Word) : fieldOp (w &&& 0xF0FF#16) = fieldOp w := by
  rw [← encXkk_fields w, encXkk_and_F0FF]
  simp

theorem fieldKk_and_F0FF (w : Word) : fieldKk (w &&& 0xF0FF#16) = fieldKk w := by
  rw [← encXkk_fields w, encXkk_and_F0FF]
  simp

/-- A word of a row decodes, to an instruction of that row (R74): the fixed fields of the row select it. -/
theorem decode_of_holds {j : Instr} (h : (rowOf j).holds w = true) : ∃ i, decode w = .ok i ∧ rowOf i = rowOf j := by
  replace h : w &&& (rowOf j).mask = (rowOf j).pattern := eq_of_beq h
  cases j
  case cls => exact ⟨.cls, congrArg decode (BitVec.and_allOnes.symm.trans h), rfl⟩
  case ret => exact ⟨.ret, congrArg decode (BitVec.and_allOnes.symm.trans h), rfl⟩
  case jpNnn | callNnn | seVxKk | sneVxKk | ldVxKk | addVxKk | ldINnn | jpV0Nnn | rndVxKk | drwVxVyN =>
    have hop := (fieldOp_and_F000 w).symm.trans (congrArg fieldOp h)
    conv_rhs at hop => simp [rowOf, fieldOp]
    simp [decode, hop, rowOf]
  case skpVx | sknpVx | ldVxDt | ldVxK | ldDtVx | ldStVx | addIVx | ldFVx | ldBVx | ldMemIVx | ldVxMemI =>
    have hop := (fieldOp_and_F0FF w).symm.trans (congrArg fieldOp h)
    have hkk := (fieldKk_and_F0FF w).symm.trans (congrArg fieldKk h)
    conv_rhs at hop => simp [rowOf, fieldOp]
    conv_rhs at hkk => simp [rowOf, fieldKk]
    simp [decode, decodeE, decodeF, hop, hkk, rowOf]
  all_goals
    have hop := (fieldOp_and_F00F w).symm.trans (congrArg fieldOp h)
    have hn := (fieldN_and_F00F w).symm.trans (congrArg fieldN h)
    conv_rhs at hop => simp [rowOf, fieldOp]
    conv_rhs at hn => simp [rowOf, fieldN]
    simp [decode, decode8, hop, hn, rowOf]

theorem decode_of_mem_of_holds {r : OpcodeRow} (hr : r ∈ opcodeMap) (h : r.holds w = true) :
    ∃ i, decode w = .ok i ∧ rowOf i = r := by
  obtain ⟨j, rfl⟩ := exists_rowOf_of_mem hr
  exact decode_of_holds h

/-- A decoded instruction's own row holds the word (R74). -/
theorem and_mask_of_decode (h : decode w = .ok i) : w &&& (rowOf i).mask = (rowOf i).pattern :=
  encode_of_decode h ▸ encode_in_row i

theorem wordWellFormed_iff : wordWellFormed w = true ↔ ∃ i, decode w = .ok i := by
  rw [wordWellFormed, List.any_eq_true]
  constructor
  · rintro ⟨r, hr, h⟩
    obtain ⟨i, hi, -⟩ := decode_of_mem_of_holds hr h
    exact ⟨i, hi⟩
  · rintro ⟨i, hi⟩
    exact ⟨rowOf i, rowOf_mem_opcodeMap i, beq_of_eq (and_mask_of_decode hi)⟩

/-- Settles O10: two rows that hold a word are the row of the one instruction it decodes to. -/
theorem decoderFollowsOpcodeMap : Obligations.DecoderFollowsOpcodeMap := by
  refine ⟨fun w => wordWellFormed_iff, fun w i h => ⟨and_mask_of_decode h, rowOf_mem_opcodeMap i⟩, ?_⟩
  intro w r hr r' hr' h h'
  obtain ⟨i, hi, rfl⟩ := decode_of_mem_of_holds hr h
  obtain ⟨i', hi', rfl⟩ := decode_of_mem_of_holds hr' h'
  exact congrArg rowOf (Except.ok.inj (hi.symm.trans hi'))

/-! ### The unmapped words -/

theorem fieldOp_toNat (w : Word) : (fieldOp w).toNat = w.toNat / 4096 := by
  simp [fieldOp]
  omega

theorem fieldN_toNat (w : Word) : (fieldN w).toNat = w.toNat % 16 := by
  simp [fieldN]

theorem fieldKk_toNat (w : Word) : (fieldKk w).toNat = w.toNat % 256 := by
  simp [fieldKk]

theorem fieldN_eq_zero : fieldN w = 0x0#4 ↔ w.toNat % 16 = 0 := by
  rw [← BitVec.toNat_inj, fieldN_toNat]
  rfl

/-- The words refused under each name, as numbers (R75). -/
def Reject.covers : Reject → Word → Prop
  | .truncated, _ => False
  | .unmapped0, w => w.toNat / 4096 = 0 ∧ w.toNat ≠ 0x00E0 ∧ w.toNat ≠ 0x00EE
  | .unmapped5, w => w.toNat / 4096 = 5 ∧ w.toNat % 16 ≠ 0
  | .unmapped8, w => w.toNat / 4096 = 8 ∧ w.toNat % 16 ∈ [0x8, 0x9, 0xA, 0xB, 0xC, 0xD, 0xF]
  | .unmapped9, w => w.toNat / 4096 = 9 ∧ w.toNat % 16 ≠ 0
  | .unmappedE, w => w.toNat / 4096 = 0xE ∧ w.toNat % 256 ∉ [0x9E, 0xA1]
  | .unmappedF, w => w.toNat / 4096 = 0xF ∧ w.toNat % 256 ∉ [0x07, 0x0A, 0x15, 0x18, 0x1E, 0x29, 0x33, 0x55, 0x65]

variable {x y : Reg} {n : Nibble} {kk : Byte} {r : Reject}

theorem decode0_error : decode0 w = .error r ↔ r = .unmapped0 ∧ w.toNat ≠ 0x00E0 ∧ w.toNat ≠ 0x00EE := by
  have hcls : w.toNat = 0x00E0 ↔ w = 0x00E0#16 := BitVec.toNat_inj (y := 0x00E0#16)
  have hret : w.toNat = 0x00EE ↔ w = 0x00EE#16 := BitVec.toNat_inj (y := 0x00EE#16)
  rw [ne_eq, ne_eq, hcls, hret, decode0]
  split
  · simp [*]
  · split <;> simp [*, eq_comm]

theorem decode8_error : decode8 x y n = .error r ↔ r = .unmapped8 ∧ n.toNat ∈ [0x8, 0x9, 0xA, 0xB, 0xC, 0xD, 0xF] := by
  unfold decode8
  split
  case h_10 =>
    have hn : n.toNat ∈ [0x8, 0x9, 0xA, 0xB, 0xC, 0xD, 0xF] := by
      simp only [List.mem_cons, List.not_mem_nil, or_false]
      simp only [imp_false, ← BitVec.toNat_inj, BitVec.toNat_ofNat] at *
      omega
    simp [hn, eq_comm]
  all_goals simp

theorem decodeE_error : decodeE x kk = .error r ↔ r = .unmappedE ∧ kk.toNat ∉ [0x9E, 0xA1] := by
  unfold decodeE
  split
  case h_3 => simp_all [← BitVec.toNat_inj, eq_comm]
  all_goals simp

theorem decodeF_error : decodeF x kk = .error r ↔
    r = .unmappedF ∧ kk.toNat ∉ [0x07, 0x0A, 0x15, 0x18, 0x1E, 0x29, 0x33, 0x55, 0x65] := by
  unfold decodeF
  split
  case h_10 => simp_all [← BitVec.toNat_inj, eq_comm]
  all_goals simp

/-- Families 5 and 9: the low nibble has to be 0 (R74). -/
theorem decodeXy0_error {q : Reject} :
    (if fieldN w = 0x0#4 then Except.ok i else .error q) = .error r ↔ r = q ∧ w.toNat % 16 ≠ 0 := by
  rw [ne_eq, ← fieldN_eq_zero]
  split <;> simp [*, eq_comm (a := q)]

/-- A word is refused under a name exactly when R75 lists it there. -/
theorem decode_error : decode w = .error r ↔ r.covers w := by
  have hw := fieldOp_toNat w
  unfold decode
  split
  case h_16 =>
    have hop : fieldOp w = 0xF#4 := by apply eq_F_of_ne <;> assumption
    rw [hop] at hw
    rw [decodeF_error, fieldKk_toNat]
    cases r <;> simp [Reject.covers, ← hw]
  all_goals
    rename_i hop
    rw [hop] at hw
  -- families 0, 5 and 9, 8, and E
  case h_1 => rw [decode0_error]; cases r <;> simp [Reject.covers, ← hw]
  case h_6 | h_10 => rw [decodeXy0_error]; cases r <;> simp [Reject.covers, ← hw]
  case h_9 => rw [decode8_error, fieldN_toNat]; cases r <;> simp [Reject.covers, ← hw]
  case h_15 => rw [decodeE_error, fieldKk_toNat]; cases r <;> simp [Reject.covers, ← hw]
  -- in the other families every word is an instruction
  all_goals cases r <;> simp [Reject.covers, ← hw]

/-- Settles O11: R75's list, name by name. -/
theorem unmappedWordsByFamily : Obligations.UnmappedWordsByFamily := fun _ =>
  ⟨decode_error, decode_error, decode_error, decode_error, decode_error, decode_error, decode_error.1⟩

/-- Settles O12: each word's fields select the instruction written beside it. -/
theorem specWordsDecode : Obligations.SpecWordsDecode :=
  ⟨rfl, rfl, rfl, rfl, rfl, rfl, rfl, rfl, rfl, rfl, rfl, rfl, rfl⟩

end Sys2Proof
end

section
/-! The engine's Step (30_encoding.md R76, R77, R78): the word at pc is run, an unmapped word is reported, a placed word
is the next one run; and where an instruction leaves pc. -/

namespace Sys2Proof.Machine

variable {s t : State} {w : Word} {i : Instr}

/-! ### The engine's Step -/

/-- With nothing scheduled, a running core takes the engine's Step (R240, R243). -/
theorem step_of_schedule_nil (hrun : s.status = .running) (hq : s.schedule = []) : step s = engineStep s := by
  rw [step_running hrun, hq]

/-- A scheduled Step is the engine's, taken off the schedule (R240, R243). -/
theorem step_of_schedule_step {ts : List Transition} (hrun : s.status = .running) (hq : s.schedule = .step :: ts) :
    step s = engineStep (s.setSchedule ts) := by
  rw [step_running hrun, hq]
  rfl

theorem decodeBytes_pair {hi lo : Byte} {rest : List Byte} (h : decodeBytes [hi, lo] = .ok (i, rest)) :
    decode (wordOfBytes hi lo) = .ok i := by
  cases hd : decode (wordOfBytes hi lo) <;> simp only [decodeBytes, hd] at h <;> cases h
  rfl

/-- Settles O14: the two bytes at pc are the word fetched, and the Step runs what it decodes to. -/
theorem stepRunsDecodedInstruction : Obligations.StepRunsDecodedInstruction := by
  intro s a b i rest hrun hwait ha hb hd _
  have hf : fetch s = some (wordOfBytes (s.mem.read a) (s.mem.read b)) := fetch_of_addrs ha hb
  refine ⟨fun hq => ?_, fun ts hq => ?_⟩
  · exact (step_of_schedule_nil hrun hq).trans (engineStep_decoded hwait hf (decodeBytes_pair hd))
  · exact (step_of_schedule_step hrun hq).trans
      (engineStep_decoded (s := s.setSchedule ts) hwait hf (decodeBytes_pair hd))

/-- An unmapped word is reported and stepped over (R78). -/
theorem engineStep_unmapped (hwait : s.wait = .none) (hf : fetch s = some w) (hw : wordWellFormed w = false) :
    engineStep s = .next (s.emit (.unknownOpcode s.pc w)).advance := by
  cases hd : decode w with
  | ok i => simp [wordWellFormed_iff.2 ⟨i, hd⟩] at hw
  | error r => simp only [engineStep, hwait, hf, hd, execUnknown]

theorem frame_emit (s : State) (e : Event) : Frame (fun p => p = .events) s (s.emit e) := by
  intro p hp
  cases p with
  | events => exact absurd rfl hp
  | _ => rfl

/-- Settles O15: the report and the advance are all an unmapped word does. -/
theorem unknownOpcodeIsReportedNoOp : Obligations.UnknownOpcodeIsReportedNoOp := by
  intro s w hrun hwait hf hw
  refine ⟨fun hq => ?_, fun ts hq => ?_⟩
  · refine ⟨_, (step_of_schedule_nil hrun hq).trans (engineStep_unmapped hwait hf hw), rfl, rfl, ?_⟩
    exact (Frame.ofPart (frame_emit s _) (Or.inr rfl)).thenPart (frame_advance _) (Or.inl rfl)
  · refine ⟨_, (step_of_schedule_step hrun hq).trans (engineStep_unmapped (s := s.setSchedule ts) hwait hf hw), rfl,
      rfl, rfl, ?_⟩
    exact ((Frame.ofPart (frame_setSchedule s ts) (Or.inr (Or.inr rfl))).thenPart (frame_emit _ _)
      (Or.inr (Or.inl rfl))).thenPart (frame_advance _) (Or.inl rfl)

/-! ### The placed word -/

theorem decode_of_decodeTableWord {n : Nat} (h : decodeTableWord 16 n = some i) :
    decode (BitVec.ofNat 16 (n % 2 ^ 16)) = .ok i := by
  simp only [decodeTableWord] at h
  split at h
  · next j rest hd =>
    cases h
    have hw := decodeBytes_pair hd
    rwa [wordOfBytes_highLow] at hw
  · cases h

/-- The address a word is placed at has its two bytes inside memory (R52). -/
theorem placeWord_pc_le (s : State) (w : Word) : (s.placeWord w).pc.toNat ≤ 0x0FFE := by
  show (if s.pc.toNat + 1 > 0x0FFF then BitVec.ofNat 16 programBase else s.pc).toNat ≤ 0x0FFE
  split
  · decide
  · omega

theorem placeWord_mem (s : State) (w : Word) :
    (s.placeWord w).mem = s.mem.copyIn (s.placeWord w).pc.toNat [highByte w, lowByte w] := rfl

/-- The placed word is the word fetched. -/
theorem fetch_placeWord (s : State) (w : Word) : fetch (s.placeWord w) = some w := by
  have hpc := placeWord_pc_le s w
  have hread := Memory.copyIn_read s.mem (s.placeWord w).pc.toNat [highByte w, lowByte w] (by simp; omega)
  rw [← placeWord_mem] at hread
  rw [fetch_eq hpc, hread, hread]
  have h0 : (s.placeWord w).pc.toNat < 4096 := by omega
  have h1 : (s.placeWord w).pc.toNat + 1 < 4096 := by omega
  simp [Nat.mod_eq_of_lt h0, Nat.mod_eq_of_lt h1]

theorem placeWord_readyToStep (s : State) (w : Word) : (s.placeWord w).readyToStep := ⟨rfl, rfl, rfl⟩

/-- Settles O16: the core is ready to step, and the word it fetches is the one placed. -/
theorem placedWordRunsNext : Obligations.PlacedWordRunsNext := by
  intro s n i h
  exact (step_ready (placeWord_readyToStep s _)).trans
    (engineStep_decoded rfl (fetch_placeWord s _) (decode_of_decodeTableWord h))

/-! ### Where an instruction leaves pc -/

/-- An instruction that changes the status halts, and does nothing else (R222, R224). -/
theorem exec_halts (h : exec i s = .next t) (hne : t.status ≠ s.status) : ∃ r, t = s.halt r := by
  have hi : mayWrite s i .status := not_not.1 (fun hn => hne (exec_frame h .status hn))
  rcases hi with rfl | ⟨nnn, rfl⟩ | ⟨x, rfl⟩ | ⟨x, rfl⟩
  · rcases exec_ret_cases s with ⟨-, e⟩ | ⟨_, e⟩ <;> rw [e] at h <;> cases h
    · exact ⟨_, rfl⟩
    · exact absurd rfl hne
  · rcases exec_callNnn_cases s nnn with ⟨-, e⟩ | ⟨_, e⟩ <;> rw [e] at h <;> cases h
    · exact ⟨_, rfl⟩
    · exact absurd rfl hne
  all_goals
    obtain rfl := Host.Outcome.next.inj h
    rcases State.storeBytes_cases s _ _ with ⟨-, a, -, e⟩ | ⟨-, e⟩
    · exact ⟨_, e⟩
    · exact absurd (congrArg State.status e) hne

/-- A store advances pc by 2 or halts (R76). -/
theorem storeBytes_pc (s : State) (w : Word) (bs : List Byte) :
    (s.storeBytes w bs).pc = s.pc + 2 ∨ (s.storeBytes w bs).status ≠ .running := by
  rcases s.storeBytes_cases w bs with ⟨-, a, -, e⟩ | ⟨-, e⟩ <;> rw [e]
  · exact Or.inr nofun
  · exact Or.inl rfl

/-- An instruction that does not set pc itself advances it by 2 or halts (R76). -/
theorem exec_pc (hi : setsPcItself i = false) (h : exec i s = .next t) : t.pc = s.pc + 2 ∨ t.status ≠ .running := by
  cases i
  case ret | jpNnn | callNnn | jpV0Nnn | ldVxK | seVxKk | sneVxKk | seVxVy | sneVxVy | skpVx | sknpVx => cases hi
  case ldBVx | ldMemIVx =>
    obtain rfl := Host.Outcome.next.inj h
    exact storeBytes_pc s _ _
  case ldVxMemI =>
    obtain rfl := Host.Outcome.next.inj h
    exact Or.inl rfl
  all_goals
    cases h
    exact Or.inl rfl

/-- Settles O52: an instruction advances pc or halts, and a halt keeps it. -/
theorem genericAdvance : Obligations.GenericAdvance := by
  intro i s t hrun h
  refine ⟨fun hi ht => (exec_pc hi h).resolve_right (not_not.2 ht), fun ht => ?_⟩
  obtain ⟨r, rfl⟩ := exec_halts h (hrun ▸ ht)
  rfl

end Sys2Proof.Machine
end

section
/-! Control transfer (40_flow.md R100 to R108): RET and CALL at every depth, the jumps and the skips, each assembled
from where the instruction leaves pc and from the frames of the named updates. -/

namespace Sys2Proof.Machine

variable {s : State} {i : Instr} {a b : Byte} {j : Fin 16}

/-! ### RET and CALL at a given depth -/

/-- RET with j + 1 addresses stacked (R100, R27). -/
theorem exec_ret_of_sp_eq_succ (h : s.sp.val = j.val + 1) :
    exec .ret s = .next ((s.setStack j.castSucc s.stack).setPc (s.stack.get j)) := by
  rcases exec_ret_cases s with ⟨hempty, -⟩ | ⟨_, e⟩
  · omega
  · have hsp : (⟨s.sp.val - 1, by omega⟩ : Fin 17) = j.castSucc := Fin.ext (by simp [h])
    have hslot : s.stack[s.sp.val - 1]'(by omega) = s.stack.get j := by simp [h, Vector.get_eq_getElem]
    rw [e, hsp, hslot]

/-- RET with an empty stack (R27). -/
theorem exec_ret_of_sp_eq_zero (h : s.sp.val = 0) :
    exec .ret s = .next (s.halt (.stackUnderflow s.pc (encode .ret))) := by
  rcases exec_ret_cases s with ⟨-, e⟩ | ⟨hpos, -⟩
  · exact e
  · omega

/-- CALL with j addresses stacked (R102, R26). -/
theorem exec_callNnn_of_sp_eq (nnn : Addr) (h : s.sp.val = j.val) :
    exec (.callNnn nnn) s =
      .next ((s.setStack j.succ (s.stack.set j (s.pc + 2))).setPc (addrImmediate nnn)) := by
  rcases exec_callNnn_cases s nnn with ⟨hfull, -⟩ | ⟨_, e⟩
  · omega
  · have hsp : (⟨s.sp.val + 1, by omega⟩ : Fin 17) = j.succ := Fin.ext (by simp [h])
    rw [e, hsp]
    simp only [h]

/-- CALL with 16 addresses stacked (R26). -/
theorem exec_callNnn_of_sp_eq_sixteen (nnn : Addr) (h : s.sp.val = 16) :
    exec (.callNnn nnn) s = .next (s.halt (.stackOverflow s.pc (encode (.callNnn nnn)))) := by
  rcases exec_callNnn_cases s nnn with ⟨-, e⟩ | ⟨hroom, -⟩
  · exact e
  · omega

/-- Settles O18: the pop at each depth above 0, and the halt at depth 0. -/
theorem retPopsReturnAddress : Obligations.RetPopsReturnAddress := by
  refine fun s => ⟨fun j h => ?_, fun h => ?_⟩
  · exact ⟨_, exec_ret_of_sp_eq_succ h, rfl, rfl,
      (Frame.ofPart (frame_setStack_sp s _) (Or.inr rfl)).thenPart (frame_setPc _ _) (Or.inl rfl)⟩
  · exact ⟨_, exec_ret_of_sp_eq_zero h, rfl, frame_halt s _⟩

/-- Settles O20: the push at each depth below 16, and the halt at depth 16. -/
theorem callPushesReturnAddress : Obligations.CallPushesReturnAddress := by
  refine fun s nnn => ⟨fun j h => ?_, fun h => ?_⟩
  · exact ⟨_, exec_callNnn_of_sp_eq nnn h, Vector.getElem_set_self j.isLt, rfl, addrImmediate_toNat nnn,
      ((frame_setStack_set s _ j _).mono (fun _ hp => Or.inr hp)).thenPart (frame_setPc _ _) (Or.inl rfl)⟩
  · exact ⟨_, _, exec_callNnn_of_sp_eq_sixteen nnn h, rfl, encNnn_toNat _ nnn, frame_halt s _⟩

/-- Settles O21: the slot the CALL filled is the one the RET reads, and the RET takes back the CALL's count. -/
theorem callThenRetReturnsAfterCall : Obligations.CallThenRetReturnsAfterCall := by
  intro s nnn h
  obtain ⟨j, hj⟩ : ∃ j : Fin 16, s.sp.val = j.val := ⟨⟨s.sp.val, h⟩, rfl⟩
  refine ⟨_, exec_callNnn_of_sp_eq nnn hj, fun u husp hustack => ?_⟩
  have hu : u.sp.val = j.val + 1 := congrArg Fin.val husp
  refine ⟨_, exec_ret_of_sp_eq_succ hu, ?_, Fin.ext hj.symm⟩
  rw [State.setPc_pc, hustack]
  exact Vector.getElem_set_self j.isLt

/-! ### Jumps and skips -/

/-- Settles O19: the targets as numbers, and the frame of pc. -/
theorem jumpsSetPc : Obligations.JumpsSetPc := fun s nnn =>
  ⟨⟨_, rfl, addrImmediate_toNat nnn, frame_setPc s _⟩,
    ⟨_, rfl, jumpOffsetTarget_toNat nnn (s.reg 0), frame_setPc s _⟩⟩

theorem State.skipIf_pc (s : State) (c : Bool) : (s.skipIf c).pc = if c then s.pc + 4 else s.pc + 2 := by
  cases c <;> rfl

/-- An instruction that skips on equal operands (R103, R105). -/
theorem skips_of_beq (h : exec i s = .next (s.skipIf (a == b))) :
    ∃ t, exec i s = .next t ∧ t.pc = (if a = b then s.pc + 4 else s.pc + 2) ∧ Frame (fun p => p = .pc) s t := by
  refine ⟨_, h, ?_, frame_skipIf s _⟩
  simp only [State.skipIf_pc, beq_iff_eq]

/-- An instruction that skips on unequal operands (R104, R106). -/
theorem skips_of_bne (h : exec i s = .next (s.skipIf (a != b))) :
    ∃ t, exec i s = .next t ∧ t.pc = (if a = b then s.pc + 2 else s.pc + 4) ∧ Frame (fun p => p = .pc) s t := by
  refine ⟨_, h, ?_, frame_skipIf s _⟩
  simp only [State.skipIf_pc, bne_iff_ne, ne_eq, ite_not]

/-- Settles O22: both instructions skip on a comparison of a register with the immediate. -/
theorem immediateSkips : Obligations.ImmediateSkips := fun _ _ _ => ⟨skips_of_beq rfl, skips_of_bne rfl⟩

/-- Settles O23: both instructions skip on a comparison of two registers. -/
theorem registerSkips : Obligations.RegisterSkips := fun _ _ _ => ⟨skips_of_beq rfl, skips_of_bne rfl⟩

end Sys2Proof.Machine
end

section
/-! Register loads, ALU and random (41_alu.md R120 to R133): what the two ways these instructions write registers leave
in V[x], in VF and elsewhere, the arithmetic of the results and the flags, and the instructions assembled from them. -/

namespace Sys2Proof.Machine

/-! ### A register write, then pc + 2 -/

section
variable (s : State) (x : Reg) (b : Byte)

theorem setV_advance_reg_same : (s.setV x b).advance.reg x = b := by
  rw [State.advance_reg, State.setV_reg, if_pos rfl]

theorem frame_setV_advance : Frame (fun p => p = .reg x ∨ p = .pc) s (s.setV x b).advance :=
  (Frame.ofPart (frame_setV s x b) (Or.inl rfl)).thenPart (frame_advance _) (Or.inr rfl)

/-! ### A result and a flag, then pc + 2 (R121) -/

variable (f : Bool)

theorem writeResultThenFlag_advance_reg_same (hx : x ≠ flagReg) : (s.writeResultThenFlag x b f).advance.reg x = b := by
  rw [State.advance_reg, State.writeResultThenFlag_reg, if_neg hx, if_pos rfl]

/-- The flag is written last, so no condition on x is needed (R121). -/
theorem writeResultThenFlag_advance_reg_flagReg : (s.writeResultThenFlag x b f).advance.reg flagReg = flagByte f := by
  rw [State.advance_reg, State.writeResultThenFlag_reg, if_pos rfl]

theorem frame_writeResultThenFlag_advance :
    Frame (fun p => p = .reg x ∨ p = .reg flagReg ∨ p = .pc) s (s.writeResultThenFlag x b f).advance :=
  ((frame_writeResultThenFlag s x b f).mono (fun _ hp => hp.imp_right Or.inl)).thenPart (frame_advance _)
    (Or.inr (Or.inr rfl))

end

/-- The three parts above as one rule, for a result and a flag given by what holds of them (R121). -/
theorem exec_resultThenFlag {i : Instr} {s : State} {x : Reg} {b : Byte} {f : Bool} (result : Byte → Prop) {flag : Nat}
    (h : exec i s = .next (s.writeResultThenFlag x b f).advance) (hresult : result b)
    (hflag : (flagByte f).toNat = flag) :
    ∃ t, exec i s = .next t ∧ (x ≠ flagReg → result (t.reg x)) ∧ (t.reg flagReg).toNat = flag ∧ t.pc = s.pc + 2 ∧
      Frame (fun p => p = .reg x ∨ p = .reg flagReg ∨ p = .pc) s t := by
  refine ⟨_, h, fun hx => ?_, ?_, rfl, frame_writeResultThenFlag_advance s x b f⟩
  · rwa [writeResultThenFlag_advance_reg_same s x b f hx]
  · rwa [writeResultThenFlag_advance_reg_flagReg]

/-! ### Results and flags as numbers -/

section
variable (a b : Byte)

/-- R128: the carry of the exact sum. -/
theorem flagByte_carryOut_toNat : (flagByte (carryOut a b)).toNat = if a.toNat + b.toNat > 255 then 1 else 0 := by
  simp only [flagByte_toNat, carryOut, decide_eq_true_eq]

/-- R129, R131: 1 when no borrow occurs. -/
theorem flagByte_noBorrow_toNat : (flagByte (noBorrow a b)).toNat = if a.toNat ≥ b.toNat then 1 else 0 := by
  simp only [flagByte_toNat, noBorrow, decide_eq_true_eq]

/-- R129, R131: the difference modulo 256, over the integers. -/
theorem byte_sub_toNat : ((a - b).toNat : Int) = (a.toNat - b.toNat : Int) % 256 := by
  rw [BitVec.toNat_sub]
  omega

/-- R130: bit 0 is the remainder of the halving. -/
theorem flagByte_shiftedOutRight_toNat : (flagByte (shiftedOutRight a)).toNat = a.toNat % 2 := by
  rw [flagByte_toNat, shiftedOutRight, BitVec.getLsbD, Nat.testBit_zero]
  simp only [decide_eq_true_eq]
  split <;> omega

/-- R130: the shift right halves. -/
theorem byte_shiftRight_one_toNat : (a >>> 1).toNat = a.toNat / 2 := by
  rw [BitVec.toNat_ushiftRight, Nat.shiftRight_one]

/-- R132: bit 7 is what the doubling loses. -/
theorem flagByte_shiftedOutLeft_toNat : (flagByte (shiftedOutLeft a)).toNat = a.toNat / 128 := by
  have ha : a.toNat < 256 := a.isLt
  rw [flagByte_toNat, shiftedOutLeft, BitVec.getLsbD, Nat.testBit_eq_decide_div_mod_eq]
  simp only [decide_eq_true_eq]
  split <;> omega

/-- R132: the shift left doubles modulo 256. -/
theorem byte_shiftLeft_one_toNat : (a <<< 1).toNat = a.toNat * 2 % 256 := by
  rw [BitVec.toNat_shiftLeft, Nat.shiftLeft_eq, Nat.pow_one]

end

/-- The source of SHR and SHL, in the words of R130 and R132. -/
theorem shiftOperand_eq_ite (s : State) (x y : Reg) :
    shiftOperand s x y = if s.config.shiftSource = .vx then s.reg x else s.reg y := by
  unfold shiftOperand
  cases s.config.shiftSource <;> rfl

/-! ### The instructions with a flag -/

/-- Settles O26: the byte sum and its carry. -/
theorem addWithCarry : Obligations.AddWithCarry := fun s x y =>
  exec_resultThenFlag (·.toNat = ((s.reg x).toNat + (s.reg y).toNat) % 256) rfl (BitVec.toNat_add _ _)
    (flagByte_carryOut_toNat _ _)

/-- Settles O27: both differences are the one byte subtraction, with the operands exchanged. -/
theorem subtractWithBorrowAvoided : Obligations.SubtractWithBorrowAvoided := fun s x y =>
  ⟨exec_resultThenFlag (fun b => (b.toNat : Int) = ((s.reg x).toNat - (s.reg y).toNat : Int) % 256) rfl
      (byte_sub_toNat _ _) (flagByte_noBorrow_toNat _ _),
    exec_resultThenFlag (fun b => (b.toNat : Int) = ((s.reg y).toNat - (s.reg x).toNat : Int) % 256) rfl
      (byte_sub_toNat _ _) (flagByte_noBorrow_toNat _ _)⟩

/-- Settles O28: the source is the one the parameter names; then the halving and the doubling of a byte. -/
theorem shiftsByOne : Obligations.ShiftsByOne := by
  intro s x y src hsrc
  obtain rfl : src = shiftOperand s x y := hsrc.trans (shiftOperand_eq_ite s x y).symm
  exact ⟨exec_resultThenFlag (·.toNat = (shiftOperand s x y).toNat / 2) rfl (byte_shiftRight_one_toNat _)
      (flagByte_shiftedOutRight_toNat _),
    exec_resultThenFlag (·.toNat = (shiftOperand s x y).toNat * 2 % 256) rfl (byte_shiftLeft_one_toNat _)
      (flagByte_shiftedOutLeft_toNat _)⟩

/-! ### The instructions with no flag -/

/-- Settles O25: the bits of the one register written. -/
theorem logicOperations : Obligations.LogicOperations := by
  refine fun s x y => ⟨⟨_, rfl, fun k => ?_, rfl, frame_setV_advance s x _⟩,
    ⟨_, rfl, fun k => ?_, rfl, frame_setV_advance s x _⟩, ⟨_, rfl, fun k => ?_, rfl, frame_setV_advance s x _⟩⟩
  · rw [setV_advance_reg_same, BitVec.getLsbD_or]
  · rw [setV_advance_reg_same, BitVec.getLsbD_and]
  · rw [setV_advance_reg_same, BitVec.getLsbD_xor]

/-- Settles O24: the value of the one register written. -/
theorem registerLoadsAndImmediateAdd : Obligations.RegisterLoadsAndImmediateAdd := by
  refine fun s x y kk => ⟨⟨_, rfl, setV_advance_reg_same s x _, rfl, frame_setV_advance s x _⟩,
    ⟨_, rfl, ?_, rfl, frame_setV_advance s x _⟩, ⟨_, rfl, setV_advance_reg_same s x _, rfl, frame_setV_advance s x _⟩⟩
  rw [setV_advance_reg_same, BitVec.toNat_add]

/-- Settles O29: the draw is counted, then V[x] is written. -/
theorem randomUnderMask : Obligations.RandomUnderMask := by
  refine fun s x kk => ⟨_, rfl, fun k => ?_, rfl, rfl, ?_⟩
  · rw [setV_advance_reg_same, BitVec.getLsbD_and]
  · exact (Frame.ofPart (frame_countDraw s) (Or.inr (Or.inr rfl))).trans
      ((frame_setV_advance s.countDraw x _).mono (fun _ hp => hp.imp_right Or.inl))

end Sys2Proof.Machine
end

section
/-! Address register, loads and stores (42_index_memory.md R150 to R156): what a new value of I leaves, the bytes and
the words of the two stores, and the instructions assembled from the rule of a store of several bytes. -/

namespace Sys2Proof.Machine

variable (s : State)

/-! ### The address register -/

theorem frame_setI_advance (a : Word) : Frame (fun p => p = .addressReg ∨ p = .pc) s (s.setI a).advance :=
  (Frame.ofPart (frame_setI s a) (Or.inl rfl)).thenPart (frame_advance _) (Or.inr rfl)

/-- ADD I,Vx wraps at 2^16 and nowhere before (R151). -/
theorem add_byteToWord_toNat (a : Word) (b : Byte) : (a + byteToWord b).toNat = (a.toNat + b.toNat) % 65536 := by
  rw [BitVec.toNat_add, byteToWord_toNat]

/-- Settles O31: the three values of I as numbers. -/
theorem addressRegisterArithmetic : Obligations.AddressRegisterArithmetic := fun s _ nnn =>
  ⟨⟨_, rfl, addrImmediate_toNat nnn, rfl, frame_setI_advance s _⟩,
    ⟨_, rfl, add_byteToWord_toNat _ _, rfl, frame_setI_advance s _⟩,
    ⟨_, rfl, glyphAddr_toNat _, rfl, frame_setI_advance s _⟩⟩

/-! ### The bytes and the words of the stores -/

/-- The digits R153 lists are the bytes stored: each is at most 9, so it fits its byte. -/
theorem decimalDigits_toNat {b : Byte} {r d : Nat}
    (h : (r, d) ∈ [(0, b.toNat / 100), (1, b.toNat / 10 % 10), (2, b.toNat % 10)]) :
    ∃ hr : r < (decimalDigits b).length, (decimalDigits b)[r].toNat = d := by
  have hb : b.toNat < 256 := b.isLt
  simp only [List.mem_cons, List.not_mem_nil, or_false, Prod.mk.injEq] at h
  rcases h with ⟨rfl, rfl⟩ | ⟨rfl, rfl⟩ | ⟨rfl, rfl⟩ <;>
    exact ⟨by simp, (BitVec.toNat_ofNat _ 8).trans (Nat.mod_eq_of_lt (by omega))⟩

/-- The word of an F-family instruction (R73, R74). -/
theorem encXkk_F_toNat (x : Reg) (kk : Byte) : (encXkk 0xF#4 x kk).toNat = 0xF000 + kk.toNat + 256 * x.val := by
  have h : (encXkk 0xF#4 x kk).toNat = 15 * 4096 + x.val * 256 + kk.toNat := encXkk_toNat 0xF#4 x kk
  omega

/-! ### The stores -/

/-- Settles O32: the rule of a store, for the three digits. -/
theorem decimalDigitsStored : Obligations.DecimalDigitsStored := by
  refine fun s x => ⟨fun h => ?_, fun h => ⟨_, _, rfl, encXkk_F_toNat x 0x33#8, State.storeBytes_halts _ h⟩⟩
  obtain ⟨hpc, hstored, -, hframe⟩ :=
    State.storeBytes_stores (encode (.ldBVx x)) (bs := decimalDigits (s.reg x)) (by simp) h
  refine ⟨_, rfl, hpc, fun a r d hd ha hb => ?_, hframe⟩
  obtain ⟨hr, hdigit⟩ := decimalDigits_toNat hd
  rw [hstored a r hr ha hb, hdigit]

/-- Settles O33: the rule of a store, for V0 to Vx. -/
theorem registerDumpStored : Obligations.RegisterDumpStored := by
  intro s x
  have hlen : (dumpBytes s x).length = x.val + 1 := dumpBytes_length s x
  rw [← hlen]
  refine ⟨fun h => ?_, fun h => ⟨_, _, rfl, encXkk_F_toNat x 0x55#8, State.storeBytes_halts _ h⟩⟩
  obtain ⟨hpc, hstored, -, hframe⟩ := State.storeBytes_stores (encode (.ldMemIVx x)) (by omega) h
  refine ⟨_, rfl, hpc, fun a r hr ha hb => ?_, hframe⟩
  rw [hstored a r.val (hlen ▸ Nat.lt_succ_of_le hr) ha hb, dumpBytes_getElem]

/-! ### The load, and a load after a dump -/

/-- The load changes registers up to x alone (R155). -/
theorem frame_loadedRegs_advance (x : Reg) :
    Frame (fun p => p = .pc ∨ ∃ r, r ≤ x ∧ p = .reg r) s (s.setRegs (s.loadedRegs x)).advance := by
  refine ((frame_setRegs s _).mono ?_).thenPart (frame_advance _) (Or.inl rfl)
  rintro _ ⟨r, hne, rfl⟩
  exact Or.inr ⟨r, not_not.1 (fun hr => hne ((s.loadedRegs_get x r).trans (if_neg hr))), rfl⟩

/-- Settles O34: the registers the load leaves, read one by one. -/
theorem registersLoaded : Obligations.RegistersLoaded := by
  refine fun s x => ⟨_, rfl, rfl, fun a r hr ha => ?_, frame_loadedRegs_advance s x⟩
  obtain rfl := isTargetAt_iff.1 ha
  rw [State.advance_reg, State.setRegs_reg, State.loadedRegs_get, if_pos hr]

/-- Settles O35: the dump's statement, then the load's at the dump's I; no instruction changes a byte held
back. -/
theorem dumpThenLoadRoundTrip : Obligations.DumpThenLoadRoundTrip := by
  intro s x
  obtain ⟨hstores, hhalts⟩ := registerDumpStored s x
  refine ⟨fun h => ?_, fun h => ?_⟩
  · obtain ⟨t, ht, -, hstored, hframe⟩ := hstores h
    have hstatus : t.status = s.status := hframe .status (by simp)
    have hI : t.I = s.I := hframe .addressReg (by simp)
    refine ⟨t, ht, hstatus, fun u hu hmem => ?_⟩
    obtain ⟨v, hv, -, hloaded, -⟩ := registersLoaded u x
    refine ⟨v, hv, fun a r hr ha => ?_⟩
    have hread : v.reg r = t.mem.read a := by
      rw [hloaded a r hr (by rwa [hu, hI]), hmem a ⟨r.val, Nat.lt_succ_of_le hr, ha⟩]
    exact ⟨fun hb => hread.trans (hstored a r hr ha hb), fun hb => hread.trans (exec_heldBack hb ht)⟩
  · obtain ⟨t, w, ht, -, ⟨a, -, -, -, hstatus⟩, -⟩ := hhalts h
    exact ⟨t, _, ht, hstatus, rfl⟩

end Sys2Proof.Machine
end

section
/-! Display (43_display.md R170 to R174): CLS, the draw of a sprite, what follows from it for collisions and for two
equal draws, and the two writers of the display. -/

namespace Sys2Proof.Machine

variable {s t : State}

/-! ### Frames of the display -/

/-- A new display changes the pixels it has otherwise. -/
theorem frame_setDisp_changed (s : State) (d : Display) :
    Frame (fun p => ∃ px py, d.pixel px py ≠ s.disp.pixel px py ∧ p = .pixel px py) s (s.setDisp d) := by
  intro p hp
  cases p with
  | pixel px py => exact not_not.1 (fun hne => hp ⟨px, py, hne, rfl⟩)
  | _ => rfl

/-- Where no pixel may be written, the whole display is kept. -/
theorem Frame.disp_eq {c : Part → Prop} (h : Frame c s t) (hc : ∀ px py, ¬ c (.pixel px py)) : t.disp = s.disp :=
  Display.ext_pixel (fun px py => h (.pixel px py) (hc px py))

/-! ### The two instructions -/

/-- Settles O38: the cleared display, and the frame of the pixels and pc. -/
theorem clearScreen : Obligations.ClearScreen := fun s =>
  ⟨_, rfl, Display.clear_pixel, rfl,
    ((frame_setDisp s _).mono (fun _ => Or.inr)).thenPart (frame_advance _) (Or.inl rfl)⟩

section
variable (s : State) (x y : Reg) (n : Nibble)

/-- The draw DRW makes: the display and the collision after the whole sprite (R172). -/
def State.drawnSprite : Blit :=
  Blit.plotSprite { disp := s.disp, collided := false } s.mem s.I (s.reg x) (s.reg y) n.toNat

theorem exec_drwVxVyN : exec (.drwVxVyN x y n) s =
    .next ((s.setDisp (s.drawnSprite x y n).disp).setV flagReg (flagByte (s.drawnSprite x y n).collided)).advance := rfl

theorem State.drawnSprite_pixel (px : Fin 64) (py : Fin 32) :
    spriteCovers s.mem s.I (s.reg x) (s.reg y) n.toNat px py ∧
        (s.drawnSprite x y n).disp.pixel px py = !(s.disp.pixel px py) ∨
      ¬ spriteCovers s.mem s.I (s.reg x) (s.reg y) n.toNat px py ∧
        (s.drawnSprite x y n).disp.pixel px py = s.disp.pixel px py :=
  Blit.plotSprite_pixel _ _ _ _ _ (by omega) px py

theorem State.drawnSprite_collided : (s.drawnSprite x y n).collided = true ↔
    ∃ px py, spriteCovers s.mem s.I (s.reg x) (s.reg y) n.toNat px py ∧ s.disp.pixel px py = true :=
  (Blit.plotSprite_collided _ _ _ _ _ (by omega)).trans (or_iff_right Bool.false_ne_true)

end

/-- Settles O39: the drawn sprite in closed form; a pixel that changed is a covered one. -/
theorem drawSprite : Obligations.DrawSprite := by
  refine fun s x y n => ⟨_, exec_drwVxVyN s x y n, fun px py hcov => ?_, fun hset => ?_, fun hunset => ?_, rfl, ?_⟩
  · rcases s.drawnSprite_pixel x y n px py with ⟨-, hflip⟩ | ⟨hnot, -⟩
    · exact hflip
    · exact absurd hcov hnot
  · rw [setV_advance_reg_same, (s.drawnSprite_collided x y n).2 hset]
    rfl
  · have hnone : (s.drawnSprite x y n).collided = false := by
      refine Bool.eq_false_iff.2 (fun hcol => ?_)
      obtain ⟨px, py, hcov, hset⟩ := (s.drawnSprite_collided x y n).1 hcol
      exact Bool.false_ne_true ((hunset px py hcov).symm.trans hset)
    rw [setV_advance_reg_same, hnone]
    rfl
  · refine (((frame_setDisp_changed s _).mono ?_).thenPart (frame_setV _ flagReg _) (Or.inr (Or.inl rfl))).thenPart
      (frame_advance _) (Or.inl rfl)
    rintro _ ⟨px, py, hne, rfl⟩
    rcases s.drawnSprite_pixel x y n px py with ⟨hcov, -⟩ | ⟨-, hkept⟩
    · exact Or.inr (Or.inr ⟨px, py, hcov, rfl⟩)
    · exact absurd hkept hne

/-! ### What a sprite covers -/

section
variable {m m' : Memory} {base : Word} {cx cy : Byte} {n : Nat} {px : Fin 64} {py : Fin 32}

/-- A covered pixel is where a set sprite bit lands (R171). -/
theorem spriteCovers_iff : spriteCovers m base cx cy n px py ↔ ∃ r c, r < n ∧ c < 8 ∧
    spriteBit (m.read (dataAddr base r)) c = true ∧ px = spriteColumn cx c ∧ py = spriteRow cy r := by
  simp only [spriteCovers, spriteBit, spriteColumn, spriteRow, Fin.ext_iff, Fin.ofNat]

/-- A sprite of height 0 covers nothing (R172). -/
theorem not_spriteCovers_zero : ¬ spriteCovers m base cx cy 0 px py := by
  rintro ⟨r, -, hr, -⟩
  exact Nat.not_lt_zero r hr

/-- Only the bytes memory reads as matter. -/
theorem spriteCovers_congr (h : ∀ a, m'.read a = m.read a) :
    spriteCovers m' base cx cy n px py ↔ spriteCovers m base cx cy n px py := by
  simp only [spriteCovers, h]

end

/-! ### Collisions, and two equal draws -/

/-- Settles O40: DRW's statement, with the covered pixels read as the places of the set sprite bits. -/
theorem collisionLaw : Obligations.CollisionLaw := by
  intro s x y n
  obtain ⟨t, ht, -, hset, hunset, -, hframe⟩ := drawSprite s x y n
  refine ⟨t, ht, fun _ => ?_, ?_⟩
  · by_cases hcol : ∃ px py, spriteCovers s.mem s.I (s.reg x) (s.reg y) n.toNat px py ∧ s.disp.pixel px py = true
    · obtain ⟨px, py, hcov, hpix⟩ := hcol
      obtain ⟨r, c, hr, hc, hbit, rfl, rfl⟩ := spriteCovers_iff.1 hcov
      exact Or.inl ⟨hset ⟨_, _, hcov, hpix⟩, r, c, hr, hc, hbit, hpix⟩
    · have hclear : ∀ px py, spriteCovers s.mem s.I (s.reg x) (s.reg y) n.toNat px py →
          s.disp.pixel px py = false :=
        fun px py hcov => Bool.eq_false_iff.2 (fun hpix => hcol ⟨px, py, hcov, hpix⟩)
      exact Or.inr ⟨hunset hclear, fun r c hr hc hbit =>
        hclear _ _ (spriteCovers_iff.2 ⟨r, c, hr, hc, hbit, rfl, rfl⟩)⟩
  · rintro rfl
    refine ⟨hunset (fun px py hcov => absurd hcov not_spriteCovers_zero), hframe.disp_eq ?_⟩
    rintro px py (hp | hp | ⟨_, _, hcov, -⟩)
    · cases hp
    · cases hp
    · exact not_spriteCovers_zero hcov

/-- Settles O41: neither coordinate is VF, so the second draw covers the pixels the first one flipped. -/
theorem drawTwiceRestoresDisplay : Obligations.DrawTwiceRestoresDisplay := by
  intro s x y n hx hy
  obtain ⟨t, ht, hflip, -, -, -, hframe⟩ := drawSprite s x y n
  obtain ⟨u, hu, hflip', hset', hunset', -, hframe'⟩ := drawSprite t x y n
  have hregx : t.reg x = s.reg x := hframe (.reg x) (by simpa using hx)
  have hregy : t.reg y = s.reg y := hframe (.reg y) (by simpa using hy)
  have hI : t.I = s.I := hframe .addressReg (by simp)
  have hread : ∀ a, t.mem.read a = s.mem.read a := fun a => hframe (.byte a) (by simp)
  simp only [hregx, hregy, hI, spriteCovers_congr hread] at hflip' hset' hunset' hframe'
  refine ⟨t, u, ht, hu, Display.ext_pixel (fun px py => ?_), ?_, fun hall => hunset' (fun px py hcov => ?_)⟩
  · by_cases hcov : spriteCovers s.mem s.I (s.reg x) (s.reg y) n.toNat px py
    · rw [hflip' px py hcov, hflip px py hcov, Bool.not_not]
    · have hkept' : u.disp.pixel px py = t.disp.pixel px py := hframe' (.pixel px py) (by simpa using hcov)
      have hkept : t.disp.pixel px py = s.disp.pixel px py := hframe (.pixel px py) (by simpa using hcov)
      exact hkept'.trans hkept
  · rintro ⟨px, py, hcov, hpix⟩
    exact hset' ⟨px, py, hcov, by rw [hflip px py hcov, hpix, Bool.not_false]⟩
  · rw [hflip px py hcov, hall px py hcov, Bool.not_true]

/-! ### Who writes the display -/

theorem Frame.refl {c : Part → Prop} (s : State) : Frame c s s := fun p _ => by cases p <;> rfl

theorem frame_setKeys (s : State) (k16 : BitVec 16) : Frame (fun p => ∃ k, p = .key k) s (s.setKeys k16) := by
  intro p hp
  cases p with
  | key k => exact absurd ⟨k, rfl⟩ hp
  | _ => rfl

/-- The parts the environment's transitions may change, over all of them (R196, R228, R230, R231, R246). -/
def environmentMayWrite : Part → Prop
  | .reg _ | .pc | .delayTimer | .soundTimer | .key _ | .wait | .status | .events => True
  | .addressReg | .sp | .slot _ | .pixel _ _ | .byte _ | .config | .schedule | .draws => False

theorem takeTransition_frame {tr : Transition} (hne : tr ≠ .step) (h : takeTransition tr s = .next t) :
    Frame environmentMayWrite s t := by
  cases tr with
  | step => exact absurd rfl hne
  | tick =>
    cases h
    have htimers : Frame environmentMayWrite s ((s.setDT (countDown s.DT)).setST (countDown s.ST)) :=
      (Frame.ofPart (frame_setDT s _) trivial).thenPart (frame_setST _ _) trivial
    rw [tick_eq]
    split
    · exact htimers.thenPart (frame_emit _ _) trivial
    · exact htimers
  | setKeys k16 =>
    cases h
    refine (frame_setKeys s k16).mono ?_
    rintro _ ⟨k, rfl⟩
    trivial
  | keyPress k =>
    cases h
    rcases keyPress_cases k s with ⟨-, e⟩ | ⟨x, -, e⟩ <;> rw [e]
    · exact Frame.refl s
    · exact ((Frame.ofPart (frame_setV s x _) trivial).thenPart (frame_setWait _ _) trivial).thenPart
        (frame_advance _) trivial
  | stop =>
    cases h
    exact Frame.ofPart (frame_halt s _) trivial

/-- Settles O42: an instruction's frame, and the environment's, read at the pixels. -/
theorem onlyClsAndDrwWriteDisplay : Obligations.OnlyClsAndDrwWriteDisplay :=
  ⟨fun _ _ _ h hne => not_not.1 (fun hi => hne ((exec_frame h).disp_eq (fun _ _ => hi))),
    fun _ _ _ hne h => (takeTransition_frame hne h).disp_eq (fun _ _ => id)⟩

end Sys2Proof.Machine
end

section
/-! Keypad and timers (44_keys_timers.md R190 to R196): what the index of a key reads from the keypad, and the
instructions and the key press assembled from the named updates. -/

namespace Sys2Proof.Machine

variable {s : State}

/-! ### The key skips -/

/-- An index below 16 reads its own key (R190). -/
theorem keyHeld_of_toNat_eq {keys : BitVec 16} {b : Byte} {k : Key} (h : b.toNat = k.val) :
    keyHeld keys b = keys.getLsbD k.val := by
  have hlt : k.val < 16 := k.isLt
  simp [keyHeld, h, hlt]

/-- An index of 16 or more is no held key (R190). -/
theorem keyHeld_of_le {keys : BitVec 16} {b : Byte} (h : 16 ≤ b.toNat) : keyHeld keys b = false := by
  have hnot : ¬ b.toNat < 16 := Nat.not_lt.2 h
  simp [keyHeld, hnot]

theorem State.skipIf_not_pc (s : State) (c : Bool) : (s.skipIf (!c)).pc = if c then s.pc + 2 else s.pc + 4 := by
  cases c <;> rfl

/-- Settles O43: the skip's condition is the key the index names, or false where it names none. -/
theorem keySkips : Obligations.KeySkips := by
  refine fun s x => ⟨⟨_, rfl, fun k hk => ?_, fun hx => ?_, frame_skipIf s _⟩,
    ⟨_, rfl, fun k hk => ?_, fun hx => ?_, frame_skipIf s _⟩⟩
  · rw [keyHeld_of_toNat_eq hk, State.skipIf_pc]
  · rw [keyHeld_of_le hx]
    rfl
  · rw [keyHeld_of_toNat_eq hk, State.skipIf_not_pc]
  · rw [keyHeld_of_le hx]
    rfl

/-! ### The key wait -/

/-- While a key is awaited the engine's Step is a stutter (R193; log entry 8). -/
theorem takeTransition_step_awaiting {x : Reg} (hwait : s.wait = .awaiting x) : takeTransition .step s = .next s := by
  simp only [takeTransition, engineStep, hwait]

theorem keyPress_awaiting {x : Reg} (k : Key) (hwait : s.wait = .awaiting x) :
    keyPress k s = ((s.setV x (BitVec.ofNat 8 k.val)).setWait .none).advance := by
  simp only [keyPress, hwait]

theorem keyPress_of_wait_none (k : Key) (hwait : s.wait = .none) : keyPress k s = s := by
  simp only [keyPress, hwait]

/-- A running core takes the scheduled key press (R196, R240). -/
theorem step_of_schedule_keyPress {k : Key} {ts : List Transition} (hrun : s.status = .running)
    (hq : s.schedule = .keyPress k :: ts) : step s = .next (keyPress k (s.setSchedule ts)) := by
  rw [step_running hrun, hq]
  rfl

/-- A key index fits the byte it is written to. -/
theorem byte_ofNat_key_toNat (k : Key) : (BitVec.ofNat 8 k.val).toNat = k.val :=
  (BitVec.toNat_ofNat _ 8).trans (Nat.mod_eq_of_lt (by omega))

/-- Settles O46: the press leaves the schedule, and the wait then says all that KeyPress does. -/
theorem keyPressCompletesWait : Obligations.KeyPressCompletesWait := by
  intro s k ts hrun hq
  have hstep := step_of_schedule_keyPress hrun hq
  refine ⟨fun x hwait => ?_, fun hwait => ?_⟩
  · rw [keyPress_awaiting (s := s.setSchedule ts) k hwait] at hstep
    refine ⟨_, hstep, ?_, rfl, rfl, rfl, ?_⟩
    · rw [State.advance_reg, State.setWait_reg, State.setV_reg, if_pos rfl, byte_ofNat_key_toNat]
    · have hschedule := frame_setSchedule s ts
      exact (((Frame.ofPart hschedule (by simp)).thenPart (frame_setV _ x _) (by simp)).thenPart
        (frame_setWait _ _) (by simp)).thenPart (frame_advance _) (by simp)
  · rw [keyPress_of_wait_none (s := s.setSchedule ts) k hwait] at hstep
    exact ⟨_, hstep, rfl, frame_setSchedule s ts⟩

/-- Settles O45: LD Vx,K is the one update of the wait, and the engine's Step waits where a key is awaited. -/
theorem keyWaitStarts : Obligations.KeyWaitStarts := fun s x =>
  ⟨s.setWait (.awaiting x), rfl, rfl, frame_setWait s _, takeTransition_step_awaiting (s.setWait_wait _)⟩

/-! ### The timer moves -/

/-- Settles O44: one update and pc + 2 each; the events are outside all three frames. -/
theorem timerMoves : Obligations.TimerMoves := fun s x =>
  ⟨⟨_, rfl, setV_advance_reg_same s x _, rfl, frame_setV_advance s x _⟩,
    ⟨_, rfl, rfl, rfl, (Frame.ofPart (frame_setDT s _) (Or.inl rfl)).thenPart (frame_advance _) (Or.inr rfl)⟩,
    ⟨_, rfl, rfl, rfl, (Frame.ofPart (frame_setST s _) (Or.inl rfl)).thenPart (frame_advance _) (Or.inr rfl)⟩⟩

end Sys2Proof.Machine
end

section
/-! Halts (60_exceptions.md R222 to R229): their codes, which instruction raises which and what it changes with it; and
that a running core always has a next state. -/

namespace Sys2Proof.Machine

variable {s t : State}

/-! ### The codes -/

theorem HaltReason.code_le_six (r : HaltReason) : r.code ≤ 6 := by
  cases r <;> simp [HaltReason.code]

theorem HaltReason.code_pos (r : HaltReason) : 0 < r.code := by
  cases r <;> simp [HaltReason.code]

theorem HaltReason.code_eq_one {r : HaltReason} : r.code = 1 ↔ ∃ pc, r = .stopped pc := by
  cases r <;> simp [HaltReason.code]

theorem Status.code_le_six (st : Status) : st.code ≤ 6 := by
  cases st with
  | running => exact Nat.zero_le 6
  | halted r => exact r.code_le_six

/-- Zero is the code of no halt (R222). -/
theorem Status.code_eq_zero {st : Status} : st.code = 0 ↔ st = .running := by
  cases st with
  | running => exact iff_of_true rfl rfl
  | halted r => exact iff_of_false r.code_pos.ne' nofun

theorem State.endedNormally_iff : s.endedNormally = true ↔ ∃ pc, s.status = .halted (.stopped pc) := by
  unfold State.endedNormally
  split
  · next pc e => exact iff_of_true rfl ⟨pc, e⟩
  · next hne => exact iff_of_false nofun (fun ⟨pc, e⟩ => hne pc e)

/-- The normal end is the halt of code 1 (R229). -/
theorem State.endedNormally_iff_code : s.endedNormally = true ↔ s.status.code = 1 := by
  rw [State.endedNormally_iff]
  cases s.status with
  | running => exact iff_of_false nofun nofun
  | halted r => simp only [Status.halted.injEq, Status.code, HaltReason.code_eq_one]

/-- Settles O50: the codes one by one, and no code is over 6. -/
theorem haltCodes : Obligations.HaltCodes := by
  refine ⟨fun _ _ _ => ⟨rfl, rfl, rfl, rfl, rfl, rfl⟩, fun s => ⟨State.endedNormally_iff_code,
    Status.code_eq_zero.symm, ?_⟩⟩
  rw [State.faultHalted, decide_eq_true_iff]
  exact (and_iff_left s.status.code_le_six).symm

/-! ### The halts instructions raise -/

/-- Settles O47: an instruction that changes the status is a halt of the state before it, and a halt is one update. -/
theorem haltsArePrecise : Obligations.HaltsArePrecise := by
  intro i s t h hne
  obtain ⟨r, rfl⟩ := exec_halts h hne
  exact ⟨⟨r, rfl⟩, frame_halt s r⟩

theorem exec_ret_halt (h : exec .ret s = .next t) (hne : t.status ≠ s.status) :
    t.status = .halted (.stackUnderflow s.pc (encode .ret)) := by
  rcases exec_ret_cases s with ⟨-, e⟩ | ⟨_, e⟩ <;> rw [e] at h <;> cases h
  · rfl
  · exact absurd rfl hne

theorem exec_callNnn_halt {nnn : Addr} (h : exec (.callNnn nnn) s = .next t) (hne : t.status ≠ s.status) :
    t.status = .halted (.stackOverflow s.pc (encode (.callNnn nnn))) := by
  rcases exec_callNnn_cases s nnn with ⟨-, e⟩ | ⟨_, e⟩ <;> rw [e] at h <;> cases h
  · rfl
  · exact absurd rfl hne

theorem storeBytes_halt {w : Word} {bs : List Byte} (h : s.storeBytes w bs = t) (hne : t.status ≠ s.status) :
    ∃ a, t.status = .halted (.fontWrite s.pc w a) := by
  rcases s.storeBytes_cases w bs with ⟨-, a, -, e⟩ | ⟨-, e⟩ <;> obtain rfl := e.symm.trans h
  · exact ⟨a, rfl⟩
  · exact absurd rfl hne

/-- Settles O48: the instructions that may write the status, each with its own halt. -/
theorem haltReasonsPerInstruction : Obligations.HaltReasonsPerInstruction := by
  intro i s t h hne
  have hi : mayWrite s i .status := not_not.1 (fun hn => hne (exec_frame h .status hn))
  rcases hi with rfl | ⟨nnn, rfl⟩ | ⟨x, rfl⟩ | ⟨x, rfl⟩
  · exact Or.inr (Or.inl ⟨_, rfl, exec_ret_halt h hne⟩)
  · exact Or.inl ⟨nnn, _, rfl, exec_callNnn_halt h hne⟩
  · obtain ⟨a, ha⟩ := storeBytes_halt (Host.Outcome.next.inj h) hne
    exact Or.inr (Or.inr ⟨x, _, a, Or.inl rfl, ha⟩)
  · obtain ⟨a, ha⟩ := storeBytes_halt (Host.Outcome.next.inj h) hne
    exact Or.inr (Or.inr ⟨x, _, a, Or.inr rfl, ha⟩)

/-! ### A running core has a next state -/

/-- No instruction faults or is refused: its halts are next states (R224; log entry 9). -/
theorem exec_next (i : Instr) (s : State) : ∃ t, exec i s = .next t := by
  cases i
  case ret => rcases exec_ret_cases s with ⟨-, e⟩ | ⟨_, e⟩ <;> exact ⟨_, e⟩
  case callNnn nnn => rcases exec_callNnn_cases s nnn with ⟨-, e⟩ | ⟨_, e⟩ <;> exact ⟨_, e⟩
  all_goals exact ⟨_, rfl⟩

theorem engineStep_next (s : State) : ∃ t, engineStep s = .next t := by
  rcases engineStep_cases s with ⟨x, -, e⟩ | ⟨-, -, e⟩ | ⟨w, r, -, -, -, e⟩ | ⟨w, i, -, -, -, e⟩
  · exact ⟨_, e⟩
  · exact ⟨_, e⟩
  · exact ⟨_, e⟩
  · rw [e]
    exact exec_next i s

theorem takeTransition_next (tr : Transition) (s : State) : ∃ t, takeTransition tr s = .next t := by
  cases tr with
  | step => exact engineStep_next s
  | _ => exact ⟨_, rfl⟩

/-- A running core takes the oldest scheduled transition, off the schedule (R240, R243). -/
theorem step_of_schedule_cons {tr : Transition} {ts : List Transition} (hrun : s.status = .running)
    (hq : s.schedule = tr :: ts) : step s = takeTransition tr (s.setSchedule ts) := by
  rw [step_running hrun, hq]

/-- Settles O49: a halt is the only fault, and each transition of a running core answers a next state. -/
theorem onlyAHaltStopsTheMachine : Obligations.OnlyAHaltStopsTheMachine := by
  refine fun s => ⟨fun r h => step_halted h, fun hrun => ?_⟩
  cases hq : s.schedule with
  | nil =>
    rw [step_of_schedule_nil hrun hq]
    exact engineStep_next s
  | cons tr ts =>
    rw [step_of_schedule_cons hrun hq]
    exact takeTransition_next tr _

end Sys2Proof.Machine
end

section
/-! The environment's transitions (60_exceptions.md R228, R230, R231, R246, R253): Tick, SetKeys and Stop when they come
next, the events a step emits, and what a key wait holds still. -/

namespace Sys2Proof.Machine

variable {s t : State}

/-! ### Tick -/

@[simp] theorem tick_DT (s : State) : (tick s).DT = countDown s.DT := by
  rw [tick_eq]
  split <;> rfl

@[simp] theorem tick_ST (s : State) : (tick s).ST = countDown s.ST := by
  rw [tick_eq]
  split <;> rfl

theorem tick_events (s : State) : (tick s).events = if s.ST = 1 then s.events ++ [.soundCue] else s.events := by
  rw [tick_eq]
  split <;> rfl

@[simp] theorem tick_schedule (s : State) : (tick s).schedule = s.schedule := by
  rw [tick_eq]
  split <;> rfl

theorem frame_tick (s : State) :
    Frame (fun p => p = .delayTimer ∨ p = .soundTimer ∨ p = .events) s (tick s) := by
  have htimers : Frame (fun p => p = .delayTimer ∨ p = .soundTimer ∨ p = .events) s
      ((s.setDT (countDown s.DT)).setST (countDown s.ST)) :=
    (Frame.ofPart (frame_setDT s _) (Or.inl rfl)).thenPart (frame_setST _ _) (Or.inr (Or.inl rfl))
  rw [tick_eq]
  split
  · exact htimers.thenPart (frame_emit _ _) (Or.inr (Or.inr rfl))
  · exact htimers

/-- Settles O53: the tick leaves the schedule and then counts. -/
theorem tickCountsDown : Obligations.TickCountsDown := by
  intro s ts hrun hq
  refine ⟨_, step_of_schedule_cons hrun hq, ?_, ?_, tick_events _, tick_schedule _, ?_⟩
  · rw [tick_DT, countDown_toNat, State.setSchedule_DT]
  · rw [tick_ST, countDown_toNat, State.setSchedule_ST]
  · refine (Frame.ofPart (frame_setSchedule s ts) (by simp)).trans ((frame_tick _).mono ?_)
    rintro _ (rfl | rfl | rfl) <;> simp

/-! ### SetKeys and Stop -/

/-- Settles O55: all 16 keys are one value of the state. -/
theorem setKeysReplacesAllKeys : Obligations.SetKeysReplacesAllKeys := by
  intro s k16 ts hrun hq
  refine ⟨_, step_of_schedule_cons hrun hq, fun _ => rfl, rfl, ?_⟩
  exact (Frame.ofPart (frame_setSchedule s ts) (Or.inl rfl)).trans ((frame_setKeys _ k16).mono (fun _ => Or.inr))

/-- Settles O56: Stop is a halt, taken off the schedule. -/
theorem stopHaltsTheCore : Obligations.StopHaltsTheCore := by
  intro s ts hrun hq
  refine ⟨_, step_of_schedule_cons hrun hq, rfl, rfl, ?_⟩
  exact (Frame.ofPart (frame_setSchedule s ts) (Or.inr rfl)).thenPart (frame_halt _ _) (Or.inl rfl)

/-! ### Events -/

/-- The engine's Step emits the report of an unmapped word, or nothing (R227). -/
theorem engineStep_events (h : engineStep s = .next t) :
    t.events = s.events ∨
      ∃ w, t.events = s.events ++ [.unknownOpcode s.pc w] ∧ fetch s = some w ∧ wordWellFormed w = false := by
  rcases engineStep_cases s with ⟨x, -, e⟩ | ⟨-, -, e⟩ | ⟨w, r, -, hf, hd, e⟩ | ⟨w, i, -, -, -, e⟩ <;> rw [e] at h
  · cases h; exact Or.inl rfl
  · cases h; exact Or.inl rfl
  · cases h
    have hw : ¬ wordWellFormed w = true := by
      rw [wordWellFormed_iff, hd]
      exact nofun
    exact Or.inr ⟨w, rfl, hf, Bool.eq_false_of_not_eq_true hw⟩
  · exact Or.inl (exec_frame h .events nofun)

theorem keyPress_events (k : Key) (s : State) : (keyPress k s).events = s.events := by
  rcases keyPress_cases k s with ⟨-, e⟩ | ⟨x, -, e⟩ <;> rw [e]
  rfl

/-- A tick emits the cue when it takes ST from 1 to 0, or nothing (R231). -/
theorem tick_emits (s : State) :
    (tick s).events = s.events ∨ ((tick s).events = s.events ++ [.soundCue] ∧ s.ST = 1 ∧ (tick s).ST = 0) := by
  rw [tick_events, tick_ST]
  split
  · next h => exact Or.inr ⟨rfl, h, by rw [h]; rfl⟩
  · exact Or.inl rfl

/-- All a transition can emit (R227, R231). -/
theorem takeTransition_events {tr : Transition} (h : takeTransition tr s = .next t) :
    t.events = s.events ∨
    (t.events = s.events ++ [.soundCue] ∧ s.ST = 1 ∧ t.ST = 0 ∧ tr = .tick) ∨
    (∃ w, t.events = s.events ++ [.unknownOpcode s.pc w] ∧ fetch s = some w ∧ wordWellFormed w = false) := by
  cases tr with
  | step => exact (engineStep_events h).imp_right Or.inr
  | tick =>
    cases h
    exact (tick_emits s).imp_right (fun ⟨he, hone, hzero⟩ => Or.inl ⟨he, hone, hzero, rfl⟩)
  | setKeys k16 => cases h; exact Or.inl rfl
  | keyPress k => cases h; exact Or.inl (keyPress_events k s)
  | stop => cases h; exact Or.inl rfl

/-- Settles O54: an engine Step or the oldest scheduled transition; taking one off the schedule
leaves the events, pc and memory as they are. -/
theorem eventsOnlyFromTickAndUnknown : Obligations.EventsOnlyFromTickAndUnknown := by
  intro s t h
  obtain ⟨-, ⟨-, he⟩ | ⟨tr, ts, hq, ht⟩⟩ := step_cases h
  · exact (engineStep_events he).imp_right Or.inr
  · rcases takeTransition_events ht with hkept | ⟨hcue, hone, hzero, rfl⟩ | hreport
    · exact Or.inl hkept
    · exact Or.inr (Or.inl ⟨hcue, hone, hzero, ts, hq⟩)
    · exact Or.inr (Or.inr hreport)

/-! ### The key wait -/

/-- The parts a transition other than the key press may change while a key is awaited (R253). -/
def waitMayWrite (p : Part) : Prop :=
  p = .delayTimer ∨ p = .soundTimer ∨ p = .events ∨ p = .schedule ∨ p = .status ∨ ∃ k, p = .key k

/-- While a key is awaited, a transition is the key press that ends the wait, or one that holds the machine still (R193,
R196, R253). -/
theorem takeTransition_awaiting {tr : Transition} {x : Reg} (hwait : s.wait = .awaiting x)
    (h : takeTransition tr s = .next t) :
    (∃ k, tr = .keyPress k ∧ t.wait = .none) ∨ Frame waitMayWrite s t := by
  cases tr with
  | step =>
    rw [takeTransition_step_awaiting hwait] at h
    cases h
    exact Or.inr (Frame.refl s)
  | tick =>
    cases h
    refine Or.inr ((frame_tick s).mono ?_)
    rintro _ (rfl | rfl | rfl) <;> simp [waitMayWrite]
  | setKeys k16 =>
    cases h
    refine Or.inr ((frame_setKeys s k16).mono ?_)
    rintro _ ⟨k, rfl⟩
    simp [waitMayWrite]
  | keyPress k =>
    cases h
    rw [keyPress_awaiting k hwait]
    exact Or.inl ⟨k, rfl, rfl⟩
  | stop =>
    cases h
    exact Or.inr (Frame.ofPart (frame_halt s _) (by simp [waitMayWrite]))

/-- Settles O57: the engine's Step waits, and a scheduled transition leaves the schedule and then ends the wait or holds
the machine still. -/
theorem keyWaitEndsOnlyByKeyPress : Obligations.KeyWaitEndsOnlyByKeyPress := by
  intro s t x hwait h
  obtain ⟨-, ⟨-, he⟩ | ⟨tr, ts, hq, ht⟩⟩ := step_cases h
  · cases (takeTransition_step_awaiting hwait).symm.trans he
    exact Or.inr (Frame.refl s)
  · rcases takeTransition_awaiting (s := s.setSchedule ts) hwait ht with ⟨k, rfl, hnone⟩ | hframe
    · exact Or.inl ⟨k, ts, hq, hnone⟩
    · exact Or.inr (Frame.trans (Frame.ofPart (frame_setSchedule s ts) (by simp)) hframe)

end Sys2Proof.Machine
end

section
/-! The reference scheduler (60_exceptions.md R241, R242, R243; log entry 13): what an outer iteration takes, what it
leaves in the accumulators, and the invariant of a run that is not stopped. -/

namespace Sys2Proof.Machine

variable {instrRate timerRate : Nat} {h : HostInput} {a : Accumulators} {r r' r'' : Run}

/-! ### Runs that continue a run -/

/-- The run `r'` is `r` after some more transitions, of which `keys` are a SetKeys and `ticks` a Tick. -/
def Run.Takes (r : Run) (keys ticks : Nat) (r' : Run) : Prop :=
  ∃ ts : List Transition, r' = ts.foldl Run.take r ∧ ts.countP Transition.isSetKeys = keys ∧ ts.count .tick = ticks

theorem Run.Takes.refl (r : Run) : r.Takes 0 0 r := ⟨[], rfl, rfl, rfl⟩

theorem Run.Takes.trans {k k' n n' : Nat} (hr : r.Takes k n r') (hr' : r'.Takes k' n' r'') :
    r.Takes (k + k') (n + n') r'' := by
  obtain ⟨ts, rfl, rfl, rfl⟩ := hr
  obtain ⟨us, rfl, rfl, rfl⟩ := hr'
  exact ⟨ts ++ us, List.foldl_append.symm, List.countP_append, List.count_append⟩

/-- A loop whose every turn takes the same numbers of SetKeys and Ticks. -/
theorem Run.takes_foldl {α : Type} {f : Run → α → Run} {k n : Nat} (hf : ∀ (r : Run) j, r.Takes k n (f r j))
    (js : List α) (r : Run) : r.Takes (js.length * k) (js.length * n) (js.foldl f r) := by
  induction js generalizing r with
  | nil => simpa using Run.Takes.refl r
  | cons j js ih =>
    rw [List.length_cons, Nat.succ_mul, Nat.succ_mul, Nat.add_comm _ k, Nat.add_comm _ n]
    exact (hf r j).trans (ih (f r j))

/-- A turn of the instruction loop refreshes the keys once and takes no Tick (R241). -/
theorem Run.takes_instrSlot (r : Run) (keys : BitVec 16) (press : Option Key) :
    r.Takes 1 0 (instrSlot keys press r) := by
  obtain ⟨ts, e, hts⟩ := instrSlot_cases keys press r
  refine ⟨ts, e, ?_⟩
  rcases hts with rfl | ⟨j, -, rfl⟩ | ⟨-, rfl⟩ <;> exact ⟨rfl, rfl⟩

theorem Run.takes_tick (r : Run) : r.Takes 0 1 (r.take .tick) := ⟨[.tick], rfl, rfl, rfl⟩

/-! ### One outer iteration -/

theorem schedulerIteration_stop (hstop : h.stopFlag = true) :
    schedulerIteration instrRate timerRate h a r = (a, r.take .stop) := by
  simp only [schedulerIteration, hstop, if_true]

theorem schedulerIteration_fst (hstop : h.stopFlag = false) :
    (schedulerIteration instrRate timerRate h a r).1 =
      { accI := a.accI + h.elapsed - firings (a.accI + h.elapsed) timerRate * timerRate
        accT := a.accT + h.elapsed - firings (a.accT + h.elapsed) instrRate * instrRate } := by
  simp only [schedulerIteration, hstop, Bool.false_eq_true, if_false]

/-- One SetKeys for each instruction period that has passed, and one Tick for each timer period (R241). -/
theorem schedulerIteration_takes (hstop : h.stopFlag = false) :
    r.Takes (firings (a.accI + h.elapsed) timerRate) (firings (a.accT + h.elapsed) instrRate)
      (schedulerIteration instrRate timerRate h a r).2 := by
  have hslots := Run.takes_foldl (fun (r : Run) j => r.takes_instrSlot (h.slot j).1 (h.slot j).2)
    (List.range (firings (a.accI + h.elapsed) timerRate)) r
  have hticks := Run.takes_foldl (fun (r : Run) (_ : Nat) => r.takes_tick)
    (List.range (firings (a.accT + h.elapsed) instrRate))
  simpa [schedulerIteration, hstop] using hslots.trans (hticks _)

/-- The remainder and the periods taken off are the accumulator, and the remainder is at most one period (R241). -/
theorem firings_remainder (acc : Nat) {p : Nat} (hp : 0 < p) :
    acc - firings acc p * p + firings acc p * p = acc ∧ acc - firings acc p * p ≤ p := by
  obtain ⟨hle, hrest⟩ := firings_spec acc p hp
  exact ⟨Nat.sub_add_cancel hle, hrest⟩

/-- Settles O58: one Stop, or the transitions of the two loops. -/
theorem referenceSchedulerTakesTransitions : Obligations.ReferenceSchedulerTakesTransitions := by
  intro instrRate timerRate h a r
  have htakes : ∃ ts : List Transition, (schedulerIteration instrRate timerRate h a r).2 = ts.foldl Run.take r := by
    cases hstop : h.stopFlag with
    | true => exact ⟨[.stop], congrArg Prod.snd (schedulerIteration_stop hstop)⟩
    | false =>
      obtain ⟨ts, e, -, -⟩ := schedulerIteration_takes hstop (a := a) (r := r)
      exact ⟨ts, e⟩
  obtain ⟨ts, e⟩ := htakes
  rw [Run.foldl_take] at e
  exact ⟨ts, congrArg Run.taken e, congrArg Run.core e⟩

/-- Settles O59: the periods taken off are the turns of the two loops. -/
theorem referenceSchedulerKeepsRemainders : Obligations.ReferenceSchedulerKeepsRemainders := by
  intro instrRate timerRate h a r hI hT hstop
  obtain ⟨hsumI, hrestI⟩ := firings_remainder (a.accI + h.elapsed) hT
  obtain ⟨hsumT, hrestT⟩ := firings_remainder (a.accT + h.elapsed) hI
  rw [schedulerIteration_fst hstop]
  exact ⟨_, _, hsumI, hrestI, hsumT, hrestT⟩

/-! ### The run -/

/-- The invariant of a run from `s` that is not stopped, after `elapsed` units of time: the record has the run's effect
and as many SetKeys and Ticks as periods have been taken off the time, of which at most one is left (R241, R242). -/
structure Paced (instrRate timerRate : Nat) (s : State) (elapsed : Nat) (a : Accumulators) (r : Run) : Prop where
  effect : r.core = r.taken.foldl State.take s
  setKeys : a.accI + r.taken.countP Transition.isSetKeys * timerRate = elapsed
  accI_le : a.accI ≤ timerRate
  ticks : a.accT + r.taken.count .tick * instrRate = elapsed
  accT_le : a.accT ≤ instrRate

theorem paced_start (instrRate timerRate : Nat) (s : State) :
    Paced instrRate timerRate s 0 Accumulators.start (Run.start s) where
  effect := rfl
  setKeys := by simp [Accumulators.start]
  accI_le := Nat.zero_le _
  ticks := by simp [Accumulators.start]
  accT_le := Nat.zero_le _

/-- A clock that takes `n` more periods off its accumulator keeps pace with the time. -/
theorem keeps_pace {acc rest count n p elapsed passed : Nat} (hpace : acc + count * p = elapsed)
    (hrest : rest + n * p = acc + passed) : rest + (count + n) * p = elapsed + passed := by
  rw [Nat.add_mul]
  omega

section
variable {s : State} {elapsed : Nat} (hI : 0 < instrRate) (hT : 0 < timerRate)
include hI hT

/-- An iteration that is not stopped keeps the invariant. -/
theorem Paced.iteration (hp : Paced instrRate timerRate s elapsed a r) (hstop : h.stopFlag = false) :
    Paced instrRate timerRate s (elapsed + h.elapsed) (schedulerIteration instrRate timerRate h a r).1
      (schedulerIteration instrRate timerRate h a r).2 := by
  obtain ⟨hsumI, hrestI⟩ := firings_remainder (a.accI + h.elapsed) hT
  obtain ⟨hsumT, hrestT⟩ := firings_remainder (a.accT + h.elapsed) hI
  obtain ⟨ts, e, hkeys, hticks⟩ := schedulerIteration_takes hstop (a := a) (r := r)
  rw [schedulerIteration_fst hstop, e, Run.foldl_take]
  refine ⟨?_, ?_, hrestI, ?_, hrestT⟩
  · rw [List.foldl_append, ← hp.effect]
  · rw [List.countP_append, hkeys]
    exact keeps_pace hp.setKeys hsumI
  · rw [List.count_append, hticks]
    exact keeps_pace hp.ticks hsumT

/-- So does a run of them. -/
theorem Paced.loop {hs : List HostInput} (hp : Paced instrRate timerRate s elapsed a r)
    (hstop : ∀ h ∈ hs, h.stopFlag = false) :
    Paced instrRate timerRate s (elapsed + (hs.map HostInput.elapsed).sum) (schedulerLoop instrRate timerRate hs a r).1
      (schedulerLoop instrRate timerRate hs a r).2 := by
  induction hs generalizing a r elapsed with
  | nil => exact hp
  | cons h hs ih =>
    obtain ⟨hfirst, hrest⟩ := List.forall_mem_cons.1 hstop
    have hnext := ih (hp.iteration hI hT hfirst) hrest
    rw [List.map_cons, List.sum_cons, ← Nat.add_assoc]
    simpa only [schedulerLoop, hfirst, Bool.false_eq_true, if_false] using hnext

end

/-- The first stop flag takes Stop and ends the run, whatever input would follow (R242). -/
theorem schedulerLoop_append_stop {hs rest : List HostInput} (hrun : ∀ h ∈ hs, h.stopFlag = false)
    (hstop : h.stopFlag = true) :
    schedulerLoop instrRate timerRate (hs ++ h :: rest) a r =
      ((schedulerLoop instrRate timerRate hs a r).1, (schedulerLoop instrRate timerRate hs a r).2.take .stop) := by
  induction hs generalizing a r with
  | nil => simp only [List.nil_append, schedulerLoop, hstop, if_true, schedulerIteration_stop hstop]
  | cons g hs ih =>
    obtain ⟨hfirst, hrest⟩ := List.forall_mem_cons.1 hrun
    simp only [List.cons_append, schedulerLoop, hfirst, Bool.false_eq_true, if_false]
    exact ih hrest

/-- Settles O60: the start keeps pace, every iteration keeps it so, and the first stop flag ends the run. -/
theorem referenceRunKeepsPaceUntilStop : Obligations.ReferenceRunKeepsPaceUntilStop := by
  intro instrRate timerRate hs s a r hI hT hrun e
  have hpaced : Paced instrRate timerRate s (0 + (hs.map HostInput.elapsed).sum)
      (schedulerRun instrRate timerRate hs s).1 (schedulerRun instrRate timerRate hs s).2 :=
    (paced_start instrRate timerRate s).loop hI hT hrun
  rw [e, Nat.zero_add] at hpaced
  obtain ⟨heffect, hkeys, hkeysLe, hticks, hticksLe⟩ := hpaced
  refine ⟨heffect, hkeys, hkeysLe, hticks, hticksLe, fun h rest hstop => ?_⟩
  calc schedulerRun instrRate timerRate (hs ++ h :: rest) s
      = ((schedulerRun instrRate timerRate hs s).1, (schedulerRun instrRate timerRate hs s).2.take .stop) :=
        schedulerLoop_append_stop hrun hstop
    _ = (a, r.take .stop) := by rw [e]

end Sys2Proof.Machine
end

section
/-! Loading (70_reset_and_hazards.md R262, R263): the bytes the loader writes at 0x200, the bytes it leaves, and the
image it cannot load. -/

namespace Sys2Proof.Machine

/-- A new memory changes the bytes that read otherwise in it. -/
theorem frame_setMem_changed (s : State) (m : Memory) :
    Frame (fun p => ∃ a, m.read a ≠ s.mem.read a ∧ p = .byte a) s (s.setMem m) := by
  intro p hp
  cases p with
  | byte a => exact not_not.1 (fun hne => hp ⟨a, hne, rfl⟩)
  | _ => rfl

/-- After loading, the first 3584 bytes of the image stand from 0x200 on, and every other address reads as before
(R57, R262). -/
theorem load_read (s : State) (b : Byte) (bs : List Byte) (a : Addr) :
    (s.load (some (b :: bs))).mem.read a =
      if 0x200 ≤ a.toNat ∧ a.toNat < 0x200 + min (bs.length + 1) 3584 then (b :: bs).getD (a.toNat - 0x200) 0
      else s.mem.read a := by
  have hlen : ((b :: bs).take imageCapacity).length = min (bs.length + 1) 3584 := by
    rw [List.length_take, List.length_cons, Nat.min_comm]
    rfl
  have hread := Memory.copyIn_read s.mem programBase ((b :: bs).take imageCapacity)
    (by rw [hlen]; unfold programBase; omega) a
  have hcap : a.toNat - programBase < imageCapacity := by
    unfold imageCapacity memSize programBase
    omega
  rw [hlen, List.getD_eq_getElem?_getD, List.getElem?_take_of_lt hcap, ← List.getD_eq_getElem?_getD] at hread
  rw [State.load_some]
  exact hread

/-- Loading changes at most the bytes the image is copied to (R262). -/
theorem frame_load (s : State) (b : Byte) (bs : List Byte) :
    Frame (fun p => ∃ (a : Addr) (j : Nat), j < min (bs.length + 1) 3584 ∧ a.toNat = 0x200 + j ∧ p = .byte a)
      s (s.load (some (b :: bs))) := by
  rw [State.load_some]
  refine (frame_setMem_changed s _).mono ?_
  rintro _ ⟨a, hne, rfl⟩
  have hin : 0x200 ≤ a.toNat ∧ a.toNat < 0x200 + min (bs.length + 1) 3584 := by
    by_contra hout
    exact hne ((load_read s b bs a).trans (if_neg hout))
  exact ⟨a, a.toNat - 0x200, by omega, by omega, rfl⟩

/-- An image that cannot be opened or holds no byte halts the core (R263). -/
theorem load_eq_halt (s : State) {image : Option (List Byte)} (h : image = none ∨ image = some []) :
    s.load image = s.halt .loadFailed := by
  rcases h with rfl | rfl <;> rfl

/-- Settles O2: the bytes the copy leaves at each address, and the halt of a failed load, from which no step is taken. -/
theorem loaderCopiesImageOrHalts : Obligations.LoaderCopiesImageOrHalts := by
  refine ⟨fun s b bs => ⟨fun a j hj ha => ?_, frame_load s b bs⟩, fun s image himage => ?_⟩
  · rw [load_read, if_pos (by omega), ha, Nat.add_sub_cancel_left]
  · rw [load_eq_halt s himage]
    exact ⟨rfl, frame_halt s _, step_halted rfl⟩

end Sys2Proof.Machine
end

section
/-! Two canonical memories that read alike are the same list (20_memory.md section 1, log entry 11): the first entry of a
canonical list is the lowest address that does not read as at reset. -/

namespace Sys2Proof.Machine

/-- Below its first entry a canonical memory reads as at reset. -/
theorem Memory.read_of_lt_wfFrom {lo : Nat} {m : Memory} (hm : Memory.wfFrom lo m = true) {a : Addr}
    (ha : a.toNat < lo) : m.read a = initialByte a := by
  induction m generalizing lo with
  | nil => rfl
  | cons c m ih =>
    obtain ⟨k, b⟩ := c
    obtain ⟨hlo, -, -, htail⟩ := (Memory.wfFrom_cons lo k b m).1 hm
    rw [Memory.read_cons, if_neg (by omega)]
    exact ih htail (by omega)

/-- An address inside memory fits in twelve bits (R50). -/
theorem toNat_ofNat_of_lt_memSize {k : Nat} (hk : k < memSize) : (BitVec.ofNat 12 k).toNat = k :=
  (BitVec.toNat_ofNat k 12).trans (Nat.mod_eq_of_lt hk)

/-- The first entry is read at its own address. -/
theorem Memory.read_head {k : Nat} (hk : k < memSize) (b : Byte) (m : Memory) :
    Memory.read ((k, b) :: m) (BitVec.ofNat 12 k) = b := by
  rw [Memory.read_cons, if_pos (toNat_ofNat_of_lt_memSize hk).symm]

/-- At its first entry a canonical memory does not read as at reset, so no canonical memory that reads alike can begin
above that entry. -/
theorem Memory.not_wfFrom_above_head {lo k : Nat} {b : Byte} {m m' : Memory}
    (hm : Memory.wfFrom lo ((k, b) :: m) = true) (hread : ∀ a, Memory.read ((k, b) :: m) a = m'.read a) :
    ¬ Memory.wfFrom (k + 1) m' = true := by
  intro hm'
  obtain ⟨-, hk, hb, -⟩ := (Memory.wfFrom_cons lo k b m).1 hm
  have hka := toNat_ofNat_of_lt_memSize hk
  apply hb
  calc b = Memory.read ((k, b) :: m) (BitVec.ofNat 12 k) := (Memory.read_head hk b m).symm
    _ = m'.read (BitVec.ofNat 12 k) := hread _
    _ = initialByte (BitVec.ofNat 12 k) := Memory.read_of_lt_wfFrom hm' (by omega)

/-- Canonical memories that read alike and begin with an entry of one address hold the same byte there, and what follows
reads alike. -/
theorem Memory.head_eq_and_tail_read_eq {k : Nat} {b b' : Byte} {m m' : Memory} (hk : k < memSize)
    (hm : Memory.wfFrom (k + 1) m = true) (hm' : Memory.wfFrom (k + 1) m' = true)
    (hread : ∀ a, Memory.read ((k, b) :: m) a = Memory.read ((k, b') :: m') a) :
    b = b' ∧ ∀ a, m.read a = m'.read a := by
  constructor
  · simpa only [Memory.read_head hk] using hread (BitVec.ofNat 12 k)
  · intro a
    by_cases ha : k = a.toNat
    · rw [Memory.read_of_lt_wfFrom hm (by omega), Memory.read_of_lt_wfFrom hm' (by omega)]
    · simpa only [Memory.read_cons, if_neg ha] using hread a

/-- Entries in canonical form, from whatever addresses up, are fixed by what they read. -/
theorem Memory.eq_of_read_eq {lo lo' : Nat} {m m' : Memory} (hm : Memory.wfFrom lo m = true)
    (hm' : Memory.wfFrom lo' m' = true) (hread : ∀ a, m.read a = m'.read a) : m = m' := by
  induction m generalizing lo lo' m' with
  | nil =>
    cases m' with
    | nil => rfl
    | cons c' m' => exact absurd rfl (Memory.not_wfFrom_above_head hm' fun a => (hread a).symm)
  | cons c m ih =>
    obtain ⟨k, b⟩ := c
    obtain ⟨-, hk, hb, htail⟩ := (Memory.wfFrom_cons lo k b m).1 hm
    cases m' with
    | nil => exact absurd rfl (Memory.not_wfFrom_above_head hm hread)
    | cons c' m' =>
      obtain ⟨k', b'⟩ := c'
      obtain ⟨-, hk', hb', htail'⟩ := (Memory.wfFrom_cons lo' k' b' m').1 hm'
      rcases lt_trichotomy k k' with hlt | rfl | hgt
      · have habove := (Memory.wfFrom_cons (k + 1) k' b' m').2 ⟨hlt, hk', hb', htail'⟩
        exact absurd habove (Memory.not_wfFrom_above_head hm hread)
      · obtain ⟨rfl, htails⟩ := Memory.head_eq_and_tail_read_eq hk htail htail' hread
        rw [ih htail htail' htails]
      · have habove := (Memory.wfFrom_cons (k' + 1) k b m).2 ⟨hgt, hk, hb, htail⟩
        exact absurd habove (Memory.not_wfFrom_above_head hm' fun a => (hread a).symm)

/-- Settles O7, by induction on the entries: the lists must begin at the same address, with the same byte. -/
theorem canonicalMemoryIsUnique : Obligations.CanonicalMemoryIsUnique :=
  fun _ _ hm hm' hread => Memory.eq_of_read_eq hm hm' hread

end Sys2Proof.Machine
end
